-- ==== Sys2Proof/Word.lean ====
section
/-! DEFINITION. The widths of the values that cross the block's ports (00_scope.md R11, 30_encoding.md R60, R71).
The index width `IDXW`, the width of the size-class port and the width of the `SC` field are the reference
platform's (DESIGN CHOICE, log 23). -/

namespace Sys2Proof

/-- One byte of the platform's physical memory (00_scope.md R16). -/
abbrev Byte := BitVec 8

/-- Offsets, packed values and physical addresses: `ADDRW` = 64 bits (R11). -/
abbrev Addr := BitVec 64

/-- The `index` port, `IDXW` = 32 bits: an entry index or a group index (R11, R60). -/
abbrev Index := BitVec 32

/-- The `size_class` port: 3 bits, so a class above 7 cannot be presented (R60, decision D6). -/
abbrev SizeClass := BitVec 3

/-- The `SC` field of a packed from value: 4 bits, values 8 to 15 reserved (R66, R70 (c)). -/
abbrev ScField := BitVec 4

/-- A validity word or the version word: 32 bits (R11, R68, R69). -/
abbrev Word32 := BitVec 32

end Sys2Proof
end

