-- ==== Sys2Proof/Config.lean ====
section
/-! DEFINITION. What the platform fixes (00_scope.md R4 to R11) and the values the spec leaves open.
A constant declared `opaque` has no value that a proof could use: what is proved holds for every one. -/

namespace Sys2Proof

/-- The implementation parameters (00_scope.md section 3), fixed before reset is released (10_state.md R33).
`MIN_GRAN`, `SC_FIELD_BITS`, `SC_MAX` and `IDXW` are parameters of section 3 too; the model has no field for them and
holds them at the reference platform's values (DESIGN CHOICE, log 23).
Every meaning reads them here, so a statement about every state is a statement about every platform. -/
structure Config where
  /-- `CAPACITY`, the number of slots (R4). -/
  capacity : Nat
  /-- `SPAN(c)` is `2 ^ spanLog[c]`: R7 asks for a table of 8 powers of two, each at least 1. -/
  spanLog  : Vector Nat 8
  /-- `FROM_BASE` (R9). -/
  fromBase : Addr
  /-- `TO_BASE` (R9). -/
  toBase   : Addr
  /-- `VERSION_ID` (R10, R69). -/
  versionId : Word32
deriving DecidableEq, Repr

/-- `GROUP_SIZE`, a constant of the architecture (R5). -/
def Config.groupSize : Nat := 32

/-- `SC_FIELD_BITS`, the width of the size-class field (R6): 4, the reference platform's value, in every `Config`
(DESIGN CHOICE, log 23). -/
def Config.scFieldBits : Nat := 4

/-- `MIN_GRAN` = 2 ^ `SC_FIELD_BITS` (R6): 16 bytes, the reference platform's value, in every `Config` (DESIGN CHOICE,
log 23). -/
def Config.minGran : Nat := 2 ^ Config.scFieldBits

/-- `SC_MAX`, the largest legal size class (R6): 7, the reference platform's value, in every `Config` (DESIGN CHOICE,
log 23). -/
def Config.scMax : Nat := 7

/-- `NGROUPS` = ceil(`CAPACITY` / 32) (R5). -/
def Config.ngroups (c : Config) : Nat := (c.capacity + (Config.groupSize - 1)) / Config.groupSize

/-- The exponent of `SPAN(c)` on the platform that `State.reset` stands for: OPEN for classes 0 to 6
(R7, decision D7; log 3). -/
opaque Config.platformSpanLog : SizeClass → Nat

/-- `FROM_BASE` of that platform: OPEN (R9, decision D15; log 3). -/
opaque Config.platformFromBase : Addr

/-- `TO_BASE` of that platform: OPEN (R9, decision D15; log 3). -/
opaque Config.platformToBase : Addr

/-- `VERSION_ID` of that platform: OPEN (R10, decision D14; log 3). -/
opaque Config.platformVersionId : Word32

/-- The free choice of R44 (decision D16; log 9): which of several matching entries the translation of an
address follows. The first argument is the state's counter of choices drawn, so that two accesses may differ. -/
opaque Config.overlapPick : Nat → Addr → Nat

/-- What a byte of the platform's memory that nothing has written reads as: free (log 16). -/
opaque Config.unwrittenByte : Addr → Byte

/-- The configuration at `State.reset`: the reference platform's values where the spec gives them
(`CAPACITY` = 224, `SPAN(7)` = 16; 00_scope.md section 3), free values where they are OPEN (log 2, log 3). -/
def Config.platform : Config where
  capacity := 224
  spanLog  := #v[Config.platformSpanLog 0, Config.platformSpanLog 1, Config.platformSpanLog 2,
                 Config.platformSpanLog 3, Config.platformSpanLog 4, Config.platformSpanLog 5,
                 Config.platformSpanLog 6, 4]
  fromBase := Config.platformFromBase
  toBase   := Config.platformToBase
  versionId := Config.platformVersionId

end Sys2Proof
end

