-- ==== Sys2Proof/Syntax.lean ====
section
/-! DEFINITION. The operations of spec/opcode_table.json, one constructor a row. -/

namespace Sys2Proof

/-- Eight commands (30_encoding.md R61), five codec units (R71) and the translation function (R72).
An operand has the width of the port that carries it, so no other value can be presented (R60, R71). -/
inductive Instr where
  /-- `INSTALL` (41_table_commands.md R91). -/
  | install (index : Index) (fromOffset toOffset : Addr) (sizeClass : SizeClass)
  /-- `ENABLE` (R92). -/
  | enable (index : Index)
  /-- `DISABLE` (R93). -/
  | disable (index : Index)
  /-- `FLUSH` (R94). -/
  | flush
  /-- `READ_FROM` (R95). -/
  | readFrom (index : Index)
  /-- `READ_TO` (R96). -/
  | readTo (index : Index)
  /-- `VERSION` (R97). -/
  | version
  /-- `GROUP_MASK` (42_validity.md R100): the group index comes on the `index` port. -/
  | groupMask (groupIndex : Index)
  /-- `ENCODE_FROM` (40_codec.md R80). -/
  | encodeFrom (fromOffset : Addr) (sizeClass : SizeClass)
  /-- `ENCODE_TO` (R81). -/
  | encodeTo (toOffset : Addr)
  /-- `DECODE_SIZE_CLASS` (R82). -/
  | decodeSizeClass (packedFrom : Addr)
  /-- `DECODE_FROM_OFFSET` (R83). -/
  | decodeFromOffset (packedFrom : Addr)
  /-- `DECODE_TO_OFFSET` (R84). -/
  | decodeToOffset (packedTo : Addr)
  /-- `TRANSLATE`: one evaluation of the translation function (20_memory.md R43). -/
  | translate (addr : Addr)
deriving DecidableEq, Repr

end Sys2Proof
end

