-- ==== Sys2Proof/WellFormed.lean ====
section
/-! DEFINITION. The checks that the types of Syntax and Config do not already make. -/

namespace Sys2Proof

/-- Where values are presented: the command ports (30_encoding.md R60), the inputs of one codec unit (R71), the
translation port (R72). R71 gives `DECODE_SIZE_CLASS` and `DECODE_FROM_OFFSET` one shared input, `d_packed_from`,
that feeds both outputs. DESIGN CHOICE (log 22): the model names a group per unit, so a presentation on
`d_packed_from` names the one unit whose output is recorded. No input has a selector. -/
inductive Port where
  | command | encodeFrom | encodeTo | decodeSizeClass | decodeFromOffset | decodeToOffset | translate
deriving DecidableEq, Repr

/-- The number of wires of a port group: 3 + 32 + 64 + 64 + 3 for the commands (R60), 64 + 3 for
`ENCODE_FROM` and 64 for the rest (R71, R72). -/
def Port.width : Port → Nat
  | .command => 166
  | .encodeFrom => 67
  | .encodeTo | .decodeSizeClass | .decodeFromOffset | .decodeToOffset | .translate => 64

/-- A number can be presented on a port if no set bit lies above the port's wires. -/
def Port.fits (p : Port) (w : Nat) : Bool := decide (w < 2 ^ p.width)

/-- The operands hold no reserved encoding: the class field of a packed from value given to an
unpacker is at most `SC_MAX` (R6, R70 (c)). Every other value of every operand is legal (R70). The machine runs the reserved ones too,
as 40_codec.md R82 and R83 say. -/
def Instr.wellFormed : Instr → Bool
  | .install _ _ _ _ => true
  | .enable _ => true
  | .disable _ => true
  | .flush => true
  | .readFrom _ => true
  | .readTo _ => true
  | .version => true
  | .groupMask _ => true
  | .encodeFrom _ _ => true
  | .encodeTo _ => true
  | .decodeSizeClass p => decide ((p.extractLsb' 0 4).toNat ≤ Config.scMax)
  | .decodeFromOffset p => decide ((p.extractLsb' 0 4).toNat ≤ Config.scMax)
  | .decodeToOffset _ => true
  | .translate _ => true

/-- `CAPACITY >= 1` (R4). That each span is a power of two and at least 1 (R7) holds by construction. -/
def Config.wellFormed (c : Config) : Bool := decide (1 ≤ c.capacity)

end Sys2Proof
end

