-- ==== Sys2Proof/Decode.lean ====
section
/-! DEFINITION. From the values on a port to an operation, and back (30_encoding.md sections 1 and 4).
The eight op codes fill the 3-bit `op` port and every operand value is legal (R61, R70), so a presentation on
a port always decodes. A number is rejected, by name, where it is no presentation of the port. -/

namespace Sys2Proof

/-- One presentation of values on a port group. The command ports are one vector, `op` in bits 2:0 as
spec/opcode_table.json numbers them, then `index`, `from_offset`, `to_offset` and `size_class` in the order of
the tuple of R73 (log 19). The vector of `ENCODE_FROM` is the one of the table, from_offset above size_class.
`decodeSizeClass` and `decodeFromOffset` are the one input `d_packed_from` of R71, named by the output that is
recorded (DESIGN CHOICE, log 22). -/
inductive Request where
  | command (ports : BitVec 166)
  | encodeFrom (ports : BitVec 67)
  | encodeTo (ports : BitVec 64)
  | decodeSizeClass (ports : BitVec 64)
  | decodeFromOffset (ports : BitVec 64)
  | decodeToOffset (ports : BitVec 64)
  | translate (ports : BitVec 64)
deriving DecidableEq, Repr

/-- The eight values of `op` as names (R61; decision D4 asks for names). -/
inductive Opcode where
  | install | enable | disable | flush | readFrom | readTo | version | groupMask
deriving DecidableEq, Repr

/-- Why a number is not decoded. -/
inductive DecodeError where
  /-- A set bit lies above the wires of the port. Safe: no hardware can be given it. -/
  | widerThanPort
  /-- The number does not say which of several inputs carries it, nor which unit of a shared input is meant (five
  units have one 64-bit input and no selector, R71, R72; log 19, log 22). -/
  | portNotNamed
deriving DecidableEq, Repr

/-- The op code table, column "binary" (R61). -/
def Opcode.ofBits (op : BitVec 3) : Opcode :=
  match op.getLsbD 2, op.getLsbD 1, op.getLsbD 0 with
  | false, false, false => .install
  | false, false, true  => .enable
  | false, true,  false => .disable
  | false, true,  true  => .flush
  | true,  false, false => .readFrom
  | true,  false, true  => .readTo
  | true,  true,  false => .version
  | true,  true,  true  => .groupMask

/-- The op code table, column "op" (R61). -/
def Opcode.toBits : Opcode → BitVec 3
  | .install => 0
  | .enable => 1
  | .disable => 2
  | .flush => 3
  | .readFrom => 4
  | .readTo => 5
  | .version => 6
  | .groupMask => 7

/-- The `op` port of a command vector (R60). -/
def opPort (w : BitVec 166) : BitVec 3 := w.extractLsb' 0 3

/-- The `index` port of a command vector (R60). -/
def indexPort (w : BitVec 166) : Index := w.extractLsb' 3 32

/-- The `from_offset` port of a command vector (R60). -/
def fromOffsetPort (w : BitVec 166) : Addr := w.extractLsb' 35 64

/-- The `to_offset` port of a command vector (R60). -/
def toOffsetPort (w : BitVec 166) : Addr := w.extractLsb' 99 64

/-- The `size_class` port of a command vector (R60). -/
def sizeClassPort (w : BitVec 166) : SizeClass := w.extractLsb' 163 3

/-- A command, decoded by `op` alone (R74); a port its operation does not use is ignored (R62). -/
def decodeCommand (w : BitVec 166) : Instr :=
  match Opcode.ofBits (opPort w) with
  | .install => .install (indexPort w) (fromOffsetPort w) (toOffsetPort w) (sizeClassPort w)
  | .enable => .enable (indexPort w)
  | .disable => .disable (indexPort w)
  | .flush => .flush
  | .readFrom => .readFrom (indexPort w)
  | .readTo => .readTo (indexPort w)
  | .version => .version
  | .groupMask => .groupMask (indexPort w)

/-- The operation that a presentation asks for (R61, R71, R72). -/
def decode : Request → Instr
  | .command w => decodeCommand w
  | .encodeFrom w => .encodeFrom (w.extractLsb' 3 64) (w.extractLsb' 0 3)
  | .encodeTo w => .encodeTo w
  | .decodeSizeClass w => .decodeSizeClass w
  | .decodeFromOffset w => .decodeFromOffset w
  | .decodeToOffset w => .decodeToOffset w
  | .translate w => .translate w

/-- The presentation of a number on a port, bit 0 on the port's lowest wire; rejected where it does not fit. -/
def Request.ofNat (p : Port) (w : Nat) : Except DecodeError Request :=
  match p.fits w with
  | false => .error .widerThanPort
  | true =>
    match p with
    | .command => .ok (.command (BitVec.ofNat 166 w))
    | .encodeFrom => .ok (.encodeFrom (BitVec.ofNat 67 w))
    | .encodeTo => .ok (.encodeTo (BitVec.ofNat 64 w))
    | .decodeSizeClass => .ok (.decodeSizeClass (BitVec.ofNat 64 w))
    | .decodeFromOffset => .ok (.decodeFromOffset (BitVec.ofNat 64 w))
    | .decodeToOffset => .ok (.decodeToOffset (BitVec.ofNat 64 w))
    | .translate => .ok (.translate (BitVec.ofNat 64 w))

/-- The decoder on any number: the operation, or the name of what is wrong with it. -/
def decodeNat (p : Port) (w : Nat) : Except DecodeError Instr :=
  (Request.ofNat p w).map decode

/-- The port that a row of spec/opcode_table.json with `nbits` bits, in whole bytes, is presented on. The
command rows have 3 bits of `op`, one byte; `ENCODE_FROM` has 67 bits, nine bytes. Five rows have 64 bits and
no selector (R71, R72): such a number alone names no port (log 19). -/
def tablePort (nbits : Nat) : Except DecodeError Port :=
  if nbits = 72 then .ok .encodeFrom
  else if nbits = 64 then .error .portNotNamed
  else .ok .command

/-- The presentation of a table row's bits, every bit above them 0. -/
def tableRequest (nbits w : Nat) : Except DecodeError Request :=
  match tablePort nbits with
  | .ok p => Request.ofNat p w
  | .error e => .error e

/-- The operation the decoder reads from the bits of a table row. -/
def decodeTableWord (nbits w : Nat) : Option Instr :=
  match tableRequest nbits w with
  | .ok r => some (decode r)
  | .error _ => none

/-- The command vector with the given values on its ports (R60). -/
def commandVector (op : Opcode) (index : Index) (fromOffset toOffset : Addr) (sizeClass : SizeClass) :
    BitVec 166 :=
  op.toBits.setWidth 166 ||| index.setWidth 166 <<< 3 ||| fromOffset.setWidth 166 <<< 35
    ||| toOffset.setWidth 166 <<< 99 ||| sizeClass.setWidth 166 <<< 163

/-- The input vector of `ENCODE_FROM` with the given values on its ports (R71). -/
def encodeFromVector (fromOffset : Addr) (sizeClass : SizeClass) : BitVec 67 :=
  sizeClass.setWidth 67 ||| fromOffset.setWidth 67 <<< 3

/-- A presentation that asks for the operation: ports it does not use (`-` in R73) are driven to 0. -/
def encode : Instr → Request
  | .install i f t c => .command (commandVector .install i f t c)
  | .enable i => .command (commandVector .enable i 0 0 0)
  | .disable i => .command (commandVector .disable i 0 0 0)
  | .flush => .command (commandVector .flush 0 0 0 0)
  | .readFrom i => .command (commandVector .readFrom i 0 0 0)
  | .readTo i => .command (commandVector .readTo i 0 0 0)
  | .version => .command (commandVector .version 0 0 0 0)
  | .groupMask g => .command (commandVector .groupMask g 0 0 0)
  | .encodeFrom f c => .encodeFrom (encodeFromVector f c)
  | .encodeTo t => .encodeTo t
  | .decodeSizeClass p => .decodeSizeClass p
  | .decodeFromOffset p => .decodeFromOffset p
  | .decodeToOffset p => .decodeToOffset p
  | .translate a => .translate a

/-- The bits of a presentation as one number, bit 0 on the port's lowest wire. -/
def Request.toNat : Request → Nat
  | .command w => w.toNat
  | .encodeFrom w => w.toNat
  | .encodeTo w => w.toNat
  | .decodeSizeClass w => w.toNat
  | .decodeFromOffset w => w.toNat
  | .decodeToOffset w => w.toNat
  | .translate w => w.toNat

/-- The port group a presentation drives. -/
def Request.port : Request → Port
  | .command _ => .command
  | .encodeFrom _ => .encodeFrom
  | .encodeTo _ => .encodeTo
  | .decodeSizeClass _ => .decodeSizeClass
  | .decodeFromOffset _ => .decodeFromOffset
  | .decodeToOffset _ => .decodeToOffset
  | .translate _ => .translate

/-- The port group an operation is reached on (R60, R71, R72); the two unpackers of `d_packed_from` are told apart
by the model alone (log 22). -/
def Instr.port : Instr → Port
  | .install _ _ _ _ => .command
  | .enable _ => .command
  | .disable _ => .command
  | .flush => .command
  | .readFrom _ => .command
  | .readTo _ => .command
  | .version => .command
  | .groupMask _ => .command
  | .encodeFrom _ _ => .encodeFrom
  | .encodeTo _ => .encodeTo
  | .decodeSizeClass _ => .decodeSizeClass
  | .decodeFromOffset _ => .decodeFromOffset
  | .decodeToOffset _ => .decodeToOffset
  | .translate _ => .translate

end Sys2Proof
end

