-- ==== Sys2Proof/Machine/State.lean ====
section
/-! DEFINITION. The state of the block and of what it is connected to, as plain data (10_state.md), and the
ways a step can end. -/

namespace Sys2Proof.Machine

/-- Reasons a step stops with a fault: NONE. The block has no fault, trap or abort (60_exceptions.md R110), no
error is fatal and no command leaves it halted, locked or busy (R118). Nobody raises one; safe. -/
inductive Fault where
deriving DecidableEq, Repr

/-- Reasons a step is refused. -/
inductive Refusal where
  /-- Raised by an arm of exec whose instruction has no meaning yet (no arm raises it now). Safe: the machine
  stops where the hardware goes on. -/
  | notModelled (mnemonic : String)
deriving DecidableEq, Repr

/-- An installed entry (10_state.md R21). An absent slot holds no value, so it has none of these (R23, R30). -/
structure Slot where
  /-- The packed from value (30_encoding.md R66). -/
  pfrom   : Addr
  /-- The packed to value (R67). -/
  pto     : Addr
  /-- Whether the block honours the entry's redirection. -/
  enabled : Bool
deriving DecidableEq, Repr

/-- The complete list of error kinds (60_exceptions.md R110). -/
inductive ErrorKind where
  | alignmentError | indexOutOfRange | notInstalled
deriving DecidableEq, Repr

/-- The response of a command, the sum type that 30_encoding.md R65 asks for. An error carries its kind and
nothing else (60_exceptions.md R112). -/
inductive Response where
  | ok
  | value (data : BitVec 64)
  | error (kind : ErrorKind)
deriving DecidableEq, Repr

/-- The answer of a packer: a packed value, or `AlignmentError` (40_codec.md R80, R81, R85). -/
inductive PackResult where
  | ok (packed : Addr)
  | alignmentError
deriving DecidableEq, Repr

/-- The answer of the translation function: `(hit, A')` (20_memory.md R43). -/
structure Translation where
  hit  : Bool
  addr : Addr
deriving DecidableEq, Repr

/-- What the ports drive in answer to one input. -/
inductive Output where
  /-- The response ports of a command (30_encoding.md R63). -/
  | response (r : Response)
  /-- `ef_err`, `ef_packed_from` (R71). -/
  | packedFrom (r : PackResult)
  /-- `et_err`, `et_packed_to` (R71). -/
  | packedTo (r : PackResult)
  /-- `d_size_class` (R71). -/
  | sizeClass (c : ScField)
  /-- `d_from_offset` (R71). -/
  | fromOffset (offset : Addr)
  /-- `d_to_offset` (R71). -/
  | toOffset (offset : Addr)
  /-- `t_hit`, `t_out` (R72). -/
  | translated (t : Translation)
  /-- The bytes a bus read returns, in address order (20_memory.md R47). -/
  | busData (bytes : List Byte)
  /-- A bus write is done (20_memory.md R47). -/
  | busDone
deriving DecidableEq, Repr

/-- One input from outside (00_scope.md R13). -/
inductive Input where
  /-- Values presented on a port of the block. -/
  | request (r : Request)
  /-- `MemRead(addr, n)` of the bus observer (20_memory.md R47). -/
  | busRead (addr : Addr) (n : Nat)
  /-- `MemWrite(addr, n, v)` of the bus observer, `v` as its bytes in address order (R47, R50). -/
  | busWrite (addr : Addr) (bytes : List Byte)
  /-- Reset: not a command, no response, cannot fail (70_reset_and_hazards.md R130). -/
  | reset
deriving DecidableEq, Repr

/-- The remap table: installed entries by index, rising; an index not listed is an absent slot
(10_state.md R20, R23; log 20). -/
abbrev Table := List (Nat × Slot)

/-- The platform's byte memory: bytes written, by address, rising; an address not listed holds a byte that
nothing has written (log 16). -/
abbrev Memory := List Host.Cell

/-- The machine. `table` is the block's whole state (10_state.md R20). -/
structure State where
  /-- The platform's parameters, constant (R33; log 1). -/
  cfg     : Config
  /-- The remap table `T` (R20, R21). -/
  table   : Table
  /-- `Mem`, the platform's physical memory, outside the block (00_scope.md R16, 20_memory.md R47). -/
  mem     : Memory
  /-- The model's own: what the ports drove in answer to the last input; nothing reads it (R112; log 13). -/
  output  : Option Output
  /-- The model's own: the inputs still to come, the next one first (R31; log 14). -/
  inputs  : List Input
  /-- The model's own: how many free choices have been drawn (20_memory.md R44; log 9). -/
  choices : Nat
deriving DecidableEq, Repr

/-- Right after reset: every slot absent (10_state.md R32), the version at its configured value. Memory lists
nothing, no input is pending and no output has been driven (log 2, log 13, log 14, log 16). -/
def State.reset : State where
  cfg     := Config.platform
  table   := []
  mem     := []
  output  := none
  inputs  := []
  choices := 0

end Sys2Proof.Machine
end

