-- ==== Sys2Proof/Machine/Ops.lean ====
section
/-! DEFINITION. The named operations over the table, the platform's memory and the ports. -/

namespace Sys2Proof.Machine

/-- The value at a key of an ordered listing. -/
def Keyed.find {α : Type} (k : Nat) : List (Nat × α) → Option α
  | [] => none
  | (j, v) :: rest => if k = j then some v else Keyed.find k rest

/-- The listing with a value at a key, the order kept. -/
def Keyed.put {α : Type} (k : Nat) (v : α) : List (Nat × α) → List (Nat × α)
  | [] => [(k, v)]
  | (j, w) :: rest =>
    if k < j then (k, v) :: (j, w) :: rest
    else if k = j then (k, v) :: rest
    else (j, w) :: Keyed.put k v rest

/-- The keys of a listing rise strictly. -/
def Keyed.rising {α : Type} : List (Nat × α) → Bool
  | [] => true
  | [_] => true
  | a :: b :: rest => decide (a.1 < b.1) && Keyed.rising (b :: rest)

/-- What the memory lists at an address; an unlisted address holds no value of the model's (log 16). -/
def Memory.listed (m : Memory) (a : Addr) : Option Byte := Keyed.find a.toNat m

/-- `Mem[a]`: the byte written last, or the free value of a byte nothing has written (log 16). -/
def Memory.read (m : Memory) (a : Addr) : Byte :=
  match m.listed a with
  | some b => b
  | none => Config.unwrittenByte a

/-- `Mem[a] <- b`. -/
def Memory.write (m : Memory) (a : Addr) (b : Byte) : Memory := Keyed.put a.toNat b m

/-- The canonical form: addresses rise strictly and lie in the 64-bit space (20_memory.md R40). An unlisted
address holds no value, so no entry can repeat it. -/
def Memory.wf (m : Memory) : Bool := Keyed.rising m && m.all fun c => decide (c.1 < 2 ^ 64)

/-- One byte of the platform's memory at its own address, not redirected (00_scope.md R16). -/
def State.readByte (s : State) (a : Addr) : Byte := s.mem.read a

/-- One byte stored at its own address, not redirected. -/
def State.writeByte (s : State) (a : Addr) (b : Byte) : State := { s with mem := s.mem.write a b }

/-- The entry present at an index: none if the slot is absent, and none at or above `CAPACITY`, which names no
slot (10_state.md R20, R23; 60_exceptions.md R114, decision D10). -/
def State.entry (s : State) (i : Nat) : Option Slot :=
  if i < s.cfg.capacity then Keyed.find i s.table else none

/-- `T[i] <- Installed{...}`: the whole slot at once (10_state.md R26). -/
def State.setEntry (s : State) (i : Nat) (e : Slot) : State := { s with table := Keyed.put i e s.table }

/-- `T[i] <- Absent` for every `i`, in one transition (41_table_commands.md R94). -/
def State.clearTable (s : State) : State := { s with table := [] }

/-- The ports drive an output; nothing else changes. -/
def State.emit (s : State) (o : Output) : State := { s with output := some o }

/-- A command's response (30_encoding.md R63). -/
def State.respond (s : State) (r : Response) : State := s.emit (.response r)

/-- `raise <Error>`, the block's one exceptional event: the response carries the kind, no state of the block
changes, nothing is recorded and control goes nowhere (60_exceptions.md R112, R116, R117). There is no return
from it (R119). -/
def State.raise (s : State) (k : ErrorKind) : State := s.respond (.error k)

/-- One free choice has been drawn (20_memory.md R44; log 9). -/
def State.drawChoice (s : State) : State := { s with choices := s.choices + 1 }

/-- The inputs still to come. -/
def State.withInputs (s : State) (l : List Input) : State := { s with inputs := l }

/-- Reset of a running block: the table empties (10_state.md R32, 70_reset_and_hazards.md R130). It has no
response; configuration, the platform's memory and the inputs still to come are not the block's (log 15). -/
def State.applyReset (s : State) : State := { s.clearTable with output := none }

/-- The next input and the state without it; none where the outside is silent. -/
def State.nextInput (s : State) : Option (Input × State) :=
  match s.inputs with
  | [] => none
  | i :: rest => some (i, s.withInputs rest)

/-- The `status` port (30_encoding.md R64, 60_exceptions.md R110; decision D5). -/
def Response.status : Response → BitVec 2
  | .ok => 0
  | .value _ => 0
  | .error .alignmentError => 1
  | .error .indexOutOfRange => 2
  | .error .notInstalled => 3

/-- The `data` port (30_encoding.md R65): driven to 0 where the response has no value (decision D5; log 18). -/
def Response.data : Response → BitVec 64
  | .ok => 0
  | .value v => v
  | .error _ => 0

/-- The `err` port of a packer (30_encoding.md R71). -/
def PackResult.err : PackResult → Bool
  | .ok _ => false
  | .alignmentError => true

/-- The packed output of a packer: 0 on an error (30_encoding.md R71). -/
def PackResult.packed : PackResult → Addr
  | .ok v => v
  | .alignmentError => 0

end Sys2Proof.Machine
end

