-- ==== Sys2Proof/Machine/Operands.lean ====
section
/-! DEFINITION. The forms of the operands: the packed values (30_encoding.md R66, R67; 40_codec.md), the size
class tables (00_scope.md R7, R8) and the alignment checks (40_codec.md R87). -/

namespace Sys2Proof.Machine

/-- `SPAN(c)` in bytes (00_scope.md R7). -/
def span (cfg : Config) (c : SizeClass) : Nat := 2 ^ cfg.spanLog[c.toNat]'c.isLt

/-- `GRAN(c)` = max(`MIN_GRAN`, `SPAN(c)`) (R8, decision D8; log 4). -/
def gran (cfg : Config) (c : SizeClass) : Nat := max Config.minGran (span cfg c)

/-- An offset is a multiple of the granularity its size class requires (40_codec.md R87). -/
def aligned (cfg : Config) (c : SizeClass) (offset : Addr) : Bool := decide (offset.toNat % gran cfg c = 0)

/-- `SC`, bits 3:0 of a packed from value (30_encoding.md R66; 40_codec.md R82). -/
def scField (p : Addr) : ScField := p.extractLsb' 0 4

/-- The offset of a packed from value: `SC` cleared (40_codec.md R83). -/
def fromOffsetOf (p : Addr) : Addr := p &&& 0xFFFFFFFFFFFFFFF0#64

/-- The offset of a packed to value: the identity (40_codec.md R84). -/
def toOffsetOf (p : Addr) : Addr := p

/-- `ENCODE_FROM` (40_codec.md R80): the reserved bits 3:0 must be clear, never masked. -/
def packFrom (fromOffset : Addr) (c : SizeClass) : PackResult :=
  if fromOffset.extractLsb' 0 4 = 0 then .ok (fromOffset ||| c.setWidth 64) else .alignmentError

/-- `ENCODE_TO` (40_codec.md R81): the minimum granularity must hold; no bit changes. -/
def packTo (toOffset : Addr) : PackResult :=
  if toOffset.toNat % Config.minGran = 0 then .ok toOffset else .alignmentError

/-- The span that a stored `SC` field selects. A reserved value (8 to 15) selects none: no stored entry has one
(10_state.md R25; log 12). -/
def spanOfField (cfg : Config) (f : ScField) : Nat :=
  if f.getLsbD 3 then 0 else span cfg (f.setWidth 3)

end Sys2Proof.Machine
end

