-- ==== Sys2Proof/Machine/Flags.lean ====
section
/-! DEFINITION. The one-bit facts of the block: it has no condition codes (00_scope.md R14, 10_state.md R31); its
flags are the presence and `enabled` of each slot, and the validity words computed from them (42_validity.md). -/

namespace Sys2Proof.Machine

/-- `T[i].present` (00_scope.md R16); false where `i` names no slot. -/
def State.present (s : State) (i : Nat) : Bool := (s.entry i).isSome

/-- The validity bit of index `i`: installed and enabled (42_validity.md R100, R103); 0 where `i` names no slot
(R101, decision D11). -/
def State.validBit (s : State) (i : Nat) : Bool :=
  match s.entry i with
  | some e => e.enabled
  | none => false

/-- The word of width `w` whose bit `k`, for `k` below the count, is `p k`. -/
def packBits (w : Nat) (p : Nat → Bool) : Nat → BitVec w
  | 0 => 0
  | k + 1 => packBits w p k ||| (if p k then BitVec.twoPow w k else 0)

/-- `VALID[g]`, the validity word of a group: bit `k` reports index `32 * g + k`, computed without wrapping
(30_encoding.md R68; 42_validity.md R100, R102). -/
def State.validWord (s : State) (g : Nat) : Word32 :=
  packBits 32 (fun k => s.validBit (Config.groupSize * g + k)) 32

/-- All the continuously driven words in one vector, `valid[0]` lowest (42_validity.md R102). -/
def State.validVector (s : State) : BitVec (32 * s.cfg.ngroups) :=
  packBits (32 * s.cfg.ngroups) s.validBit (32 * s.cfg.ngroups)

end Sys2Proof.Machine
end

