-- ==== Sys2Proof/Machine/Translation.lean ====
section
/-! DEFINITION. The translation function (20_memory.md R42 to R46). All address arithmetic is modulo 2^64
(decision D15; log 11). -/

namespace Sys2Proof.Machine

/-- `(A - FROM_BASE - F) mod 2^64`: how far an address lies above the start of an entry's source range (R43). -/
def sourceDistance (cfg : Config) (e : Slot) (a : Addr) : Addr := a - cfg.fromBase - fromOffsetOf e.pfrom

/-- The address lies in the entry's source range (R42). -/
def inSource (cfg : Config) (e : Slot) (a : Addr) : Bool :=
  decide ((sourceDistance cfg e a).toNat < spanOfField cfg (scField e.pfrom))

/-- Byte `k` of the source range maps to byte `k` of the destination range (R42, R43; decision D17; log 10). -/
def destination (cfg : Config) (e : Slot) (a : Addr) : Addr :=
  cfg.toBase + toOffsetOf e.pto + sourceDistance cfg e a

/-- The slot's redirection catches the address: installed, enabled, and the address in its source range (R43). -/
def State.redirects (s : State) (i : Nat) (a : Addr) : Bool :=
  match s.entry i with
  | some e => e.enabled && inSource s.cfg e a
  | none => false

/-- The set `M` of R43, as a list of indices. -/
def State.matching (s : State) (a : Addr) : List Nat :=
  (List.range s.cfg.capacity).filter fun i => s.redirects i a

/-- The address that slot `i` alone would give (R43, R44). -/
def State.destinationOf (s : State) (i : Nat) (a : Addr) : Addr :=
  match s.entry i with
  | some e => destination s.cfg e a
  | none => a

/-- Which of several matching slots an access follows: no rule says, so it is drawn (R44, decision D16; log 9). -/
def pickAmong (choices : Nat) (a : Addr) (first : Nat) (l : List Nat) : Nat :=
  l.getD (Config.overlapPick choices a % l.length) first

/-- `Translate(A)` (R43, R44): one pass (R45), no permission and no fault (R46). -/
def State.translation (s : State) (a : Addr) : Translation :=
  match s.matching a with
  | [] => { hit := false, addr := a }
  | [i] => { hit := true, addr := s.destinationOf i a }
  | i :: j :: rest => { hit := true, addr := s.destinationOf (pickAmong s.choices a i (i :: j :: rest)) a }

/-- An evaluation of `Translate` changes no state (R52); the model's counter counts the choices drawn. -/
def State.afterTranslation (s : State) (a : Addr) : State :=
  match s.matching a with
  | [] => s
  | [_] => s
  | _ :: _ :: _ => s.drawChoice

/-- `TRANSLATE`: one evaluation on the translation port (R43; 30_encoding.md R72). -/
def execTranslate (a : Addr) (s : State) : Host.Outcome State Fault Refusal :=
  .next ((s.afterTranslation a).emit (.translated (s.translation a)))

end Sys2Proof.Machine
end

