-- ==== Sys2Proof/Machine/Bus.lean ====
section
/-! DEFINITION. The bus observer's accesses through the remapper (20_memory.md R47): each byte address is
translated on its own (decision D18; log 10), all of them by the same table. -/

namespace Sys2Proof.Machine

/-- The bytes of `MemRead(addr, n)` in address order, and the state after the translations. -/
def State.readThrough (s : State) (a : Addr) : Nat → List Byte × State
  | 0 => ([], s)
  | n + 1 =>
    let r := (s.afterTranslation a).readThrough (a + 1) n
    (s.readByte (s.translation a).addr :: r.1, r.2)

/-- The stores of `MemWrite`, byte by byte in address order. -/
def State.writeThrough (s : State) (a : Addr) : List Byte → State
  | [] => s
  | b :: rest => ((s.afterTranslation a).writeByte (s.translation a).addr b).writeThrough (a + 1) rest

/-- `MemRead(addr, n)` (R47). -/
def State.busRead (s : State) (a : Addr) (n : Nat) : State :=
  let r := s.readThrough a n
  r.2.emit (.busData r.1)

/-- `MemWrite(addr, n, v)` (R47). -/
def State.busWrite (s : State) (a : Addr) (bytes : List Byte) : State :=
  (s.writeThrough a bytes).emit .busDone

end Sys2Proof.Machine
end

