-- ==== Sys2Proof/Machine/Codec.lean ====
section
/-! DEFINITION. The five units of the bit-packer/unpacker on their own ports (40_codec.md; 30_encoding.md R71).
They touch no state (R85); the model records what the named unit drives (log 13). The two unpackers of a packed
from value share one input (R71) and compute from it together; a presentation records one of them (log 22). -/

namespace Sys2Proof.Machine

/-- `ENCODE_FROM` (R80). -/
def execEncodeFrom (fromOffset : Addr) (c : SizeClass) (s : State) : Host.Outcome State Fault Refusal :=
  .next (s.emit (.packedFrom (packFrom fromOffset c)))

/-- `ENCODE_TO` (R81). -/
def execEncodeTo (toOffset : Addr) (s : State) : Host.Outcome State Fault Refusal :=
  .next (s.emit (.packedTo (packTo toOffset)))

/-- `DECODE_SIZE_CLASS` (R82; decision D27; log 12). -/
def execDecodeSizeClass (packedFrom : Addr) (s : State) : Host.Outcome State Fault Refusal :=
  .next (s.emit (.sizeClass (scField packedFrom)))

/-- `DECODE_FROM_OFFSET` (R83). -/
def execDecodeFromOffset (packedFrom : Addr) (s : State) : Host.Outcome State Fault Refusal :=
  .next (s.emit (.fromOffset (fromOffsetOf packedFrom)))

/-- `DECODE_TO_OFFSET` (R84). -/
def execDecodeToOffset (packedTo : Addr) (s : State) : Host.Outcome State Fault Refusal :=
  .next (s.emit (.toOffset (toOffsetOf packedTo)))

end Sys2Proof.Machine
end

