-- ==== Sys2Proof/Machine/Table.lean ====
section
/-! DEFINITION. The commands of the remap-table controller (41_table_commands.md). Each completes with one
response, in every state (R90); no earlier error matters (60_exceptions.md R119). -/

namespace Sys2Proof.Machine

/-- `INSTALL`: the index check first, then the class check on both offsets, then the packers
(R91; 60_exceptions.md R115, decision D9; log 5). The new entry is disabled. -/
def State.install (s : State) (index : Index) (fromOffset toOffset : Addr) (c : SizeClass) : State :=
  if s.cfg.capacity ≤ index.toNat then s.raise .indexOutOfRange
  else if !aligned s.cfg c fromOffset then s.raise .alignmentError
  else if !aligned s.cfg c toOffset then s.raise .alignmentError
  else
    match packFrom fromOffset c, packTo toOffset with
    | .ok pf, .ok pt => (s.setEntry index.toNat { pfrom := pf, pto := pt, enabled := false }).respond .ok
    | _, _ => s.raise .alignmentError

/-- `ENABLE` and `DISABLE` write one bit of a present entry and nothing else (R92, R93). -/
def State.setEnabled (s : State) (index : Index) (b : Bool) : State :=
  match s.entry index.toNat with
  | none => s.raise .notInstalled
  | some e => (s.setEntry index.toNat { e with enabled := b }).respond .ok

/-- `READ_FROM` and `READ_TO` return a field of a present entry (R95, R96). -/
def State.readField (s : State) (index : Index) (field : Slot → Addr) : State :=
  match s.entry index.toNat with
  | none => s.raise .notInstalled
  | some e => s.respond (.value (field e))

/-- `INSTALL` (R91). -/
def execInstall (index : Index) (fromOffset toOffset : Addr) (c : SizeClass) (s : State) :
    Host.Outcome State Fault Refusal :=
  .next (s.install index fromOffset toOffset c)

/-- `ENABLE` (R92). -/
def execEnable (index : Index) (s : State) : Host.Outcome State Fault Refusal :=
  .next (s.setEnabled index true)

/-- `DISABLE` (R93). -/
def execDisable (index : Index) (s : State) : Host.Outcome State Fault Refusal :=
  .next (s.setEnabled index false)

/-- `FLUSH` (R94): every slot absent, always OK. -/
def execFlush (s : State) : Host.Outcome State Fault Refusal :=
  .next (s.clearTable.respond .ok)

/-- `READ_FROM` (R95). -/
def execReadFrom (index : Index) (s : State) : Host.Outcome State Fault Refusal :=
  .next (s.readField index Slot.pfrom)

/-- `READ_TO` (R96). -/
def execReadTo (index : Index) (s : State) : Host.Outcome State Fault Refusal :=
  .next (s.readField index Slot.pto)

/-- `VERSION` (R97): `VERSION_ID`, zero extended (30_encoding.md R65). -/
def execVersion (s : State) : Host.Outcome State Fault Refusal :=
  .next (s.respond (.value (s.cfg.versionId.setWidth 64)))

end Sys2Proof.Machine
end

