-- ==== Sys2Proof/Machine/Validity.lean ====
section
/-! DEFINITION. The command of the entry-validity aggregator (42_validity.md). -/

namespace Sys2Proof.Machine

/-- `GROUP_MASK` (R100): the validity word of the group, zero extended; never an error (R101). -/
def execGroupMask (groupIndex : Index) (s : State) : Host.Outcome State Fault Refusal :=
  .next (s.respond (.value ((s.validWord groupIndex.toNat).setWidth 64)))

end Sys2Proof.Machine
end

