-- ==== Sys2Proof/Machine/Dispatch.lean ====
section
/-! DEFINITION. One arm per operation of spec/opcode_table.json. -/

namespace Sys2Proof.Machine

/-- The meaning of each operation. -/
def exec (i : Instr) (s : State) : Host.Outcome State Fault Refusal :=
  match i with
  | .install index f t c => Sys2Proof.Machine.execInstall index f t c s
  | .enable index => Sys2Proof.Machine.execEnable index s
  | .disable index => Sys2Proof.Machine.execDisable index s
  | .flush => Sys2Proof.Machine.execFlush s
  | .readFrom index => Sys2Proof.Machine.execReadFrom index s
  | .readTo index => Sys2Proof.Machine.execReadTo index s
  | .version => Sys2Proof.Machine.execVersion s
  | .groupMask g => Sys2Proof.Machine.execGroupMask g s
  | .encodeFrom f c => Sys2Proof.Machine.execEncodeFrom f c s
  | .encodeTo t => Sys2Proof.Machine.execEncodeTo t s
  | .decodeSizeClass p => Sys2Proof.Machine.execDecodeSizeClass p s
  | .decodeFromOffset p => Sys2Proof.Machine.execDecodeFromOffset p s
  | .decodeToOffset p => Sys2Proof.Machine.execDecodeToOffset p s
  | .translate a => Sys2Proof.Machine.execTranslate a s

end Sys2Proof.Machine
end

