-- ==== Sys2Proof/Machine/Step.lean ====
section
/-! DEFINITION. One step: the next input from outside takes effect (00_scope.md R12, R13; 20_memory.md R54). -/

namespace Sys2Proof.Machine

/-- A step takes the next input. With none pending the block does nothing: it has no step of its own (R12). -/
def step (s : State) : Host.Outcome State Fault Refusal :=
  match s.nextInput with
  | none => .next s
  | some (.request r, t) => exec (decode r) t
  | some (.busRead a n, t) => .next (t.busRead a n)
  | some (.busWrite a bytes, t) => .next (t.busWrite a bytes)
  | some (.reset, t) => .next t.applyReset

/-- The state with the table row's bits as the next input (log 14, log 19); unchanged where the number is no
presentation of a port. -/
def State.withFetchWord (s : State) (nbits w : Nat) : State :=
  match tableRequest nbits w with
  | .ok r => s.withInputs (.request r :: s.inputs)
  | .error _ => s

end Sys2Proof.Machine
end

