-- ==== Sys2Proof/Safety.lean ====
section
/-! DEFINITION. The terms in which statements speak of states and runs: the invariant of reachable states, the
duty that software has, runs of operations, and the life cycle of a slot. -/

namespace Sys2Proof.Machine

/-- A stored entry is well formed (10_state.md R25): its class is legal, and both offsets are multiples of the
granularity of that class. -/
def Slot.wf (cfg : Config) (e : Slot) : Bool :=
  !e.pfrom.getLsbD 3 && aligned cfg ((scField e.pfrom).setWidth 3) (fromOffsetOf e.pfrom)
    && aligned cfg ((scField e.pfrom).setWidth 3) e.pto

/-- The table is a mapping from indices below `CAPACITY` to well-formed entries, each index listed once
(10_state.md R20, R22, R25). -/
def Table.wf (cfg : Config) (t : Table) : Bool :=
  Keyed.rising t && t.all fun p => decide (p.1 < cfg.capacity) && Slot.wf cfg p.2

/-- The invariant of reachable states: the platform has a slot (00_scope.md R4), and the table and the memory keep
their forms. -/
def State.wf (s : State) : Bool := s.cfg.wellFormed && Table.wf s.cfg s.table && s.mem.wf

/-- No address lies in the source ranges of two enabled entries: the duty of 70_reset_and_hazards.md R139. -/
def State.disjointSources (s : State) : Prop := ∀ a, (s.matching a).length ≤ 1

/-- A translation that R43 and R44 allow: the identity where no enabled entry catches the address; else a hit
at the address that SOME entry that catches it gives. -/
def State.mayTranslate (s : State) (a : Addr) (t : Translation) : Prop :=
  ((∀ i, s.redirects i a = false) ∧ t = { hit := false, addr := a }) ∨
    ∃ i, s.redirects i a = true ∧ t = { hit := true, addr := s.destinationOf i a }

/-- Operations run one after another, stopping where one stops (20_memory.md R54). -/
def execAll : List Instr → State → Host.Outcome State Fault Refusal
  | [], s => .next s
  | i :: rest, s =>
    match exec i s with
    | .next t => execAll rest t
    | .fault r => .fault r
    | .refused r => .refused r

/-- Along the run no `INSTALL` at the index succeeds. -/
def NotReinstalled (idx : Index) : List Instr → State → Prop
  | [], _ => True
  | i :: rest, s =>
    ∀ t, exec i s = .next t →
      (∀ f o c, i = .install idx f o c → t.output ≠ some (.response .ok)) ∧ NotReinstalled idx rest t

/-- The entry an `INSTALL` with acceptable operands stores: disabled (41_table_commands.md R91). -/
def newEntry (fromOffset toOffset : Addr) (c : SizeClass) : Slot :=
  { pfrom := fromOffset ||| c.setWidth 64, pto := toOffset, enabled := false }

/-- The life cycle of slot `i` (10_state.md R27): what the slot becomes under an operation, from what it was. An
`INSTALL` at `i` lands in `Installed(enabled=0)` if its offsets are aligned and else leaves the slot; `FLUSH`
empties it; an operation on another index, a read or a codec operation leaves it. -/
def lifeCycle (cfg : Config) (i : Nat) : Instr → Option Slot → Option Slot
  | .install j f t c, before =>
    if j.toNat = i ∧ aligned cfg c f = true ∧ aligned cfg c t = true then some (newEntry f t c) else before
  | .enable j, before => if j.toNat = i then before.map fun e => { e with enabled := true } else before
  | .disable j, before => if j.toNat = i then before.map fun e => { e with enabled := false } else before
  | .flush, _ => none
  | .readFrom _, before => before
  | .readTo _, before => before
  | .version, before => before
  | .groupMask _, before => before
  | .encodeFrom _ _, before => before
  | .encodeTo _, before => before
  | .decodeSizeClass _, before => before
  | .decodeFromOffset _, before => before
  | .decodeToOffset _, before => before
  | .translate _, before => before

/-- The slots an operation may write: its own index, or all of them for `FLUSH` (41_table_commands.md R99). -/
def touches (i : Instr) (j : Nat) : Bool :=
  match i with
  | .install idx _ _ _ => decide (idx.toNat = j)
  | .enable idx => decide (idx.toNat = j)
  | .disable idx => decide (idx.toNat = j)
  | .flush => true
  | .readFrom _ => false
  | .readTo _ => false
  | .version => false
  | .groupMask _ => false
  | .encodeFrom _ _ => false
  | .encodeTo _ => false
  | .decodeSizeClass _ => false
  | .decodeFromOffset _ => false
  | .decodeToOffset _ => false
  | .translate _ => false

/-- How many of the indices below `n` satisfy `p`. -/
def countBelow (p : Nat → Bool) (n : Nat) : Nat := ((List.range n).filter p).length

/-- The `k`-th byte address of a multi-byte access (20_memory.md R47). -/
def byteAddr (a : Addr) (k : Nat) : Addr := a + BitVec.ofNat 64 k

/-- Where the `k`-th byte of a multi-byte access goes: its own translation (20_memory.md R47), by the table as the
access finds it, each byte that R44 leaves open with a choice of its own. -/
def State.byteTarget (s : State) (a : Addr) (k : Nat) : Translation :=
  { s with choices := s.choices + countBelow (fun m => decide (2 ≤ (s.matching (byteAddr a m)).length)) k }.translation
    (byteAddr a k)

end Sys2Proof.Machine
end

