-- ==== Sys2Proof/Certificates/Slice0/Obligations.lean ====
section
/-! DEFINITION. The statements for the provers. A title or docstring that names a log entry says which part of the
statement is a decision of the spec or of the model rather than a rule of the source. -/

open Sys2Proof Sys2Proof.Machine

/-! Inputs, encodings and runs -/

/-- 00_scope.md R12, 30_encoding.md R74: the next presentation on a port runs the operation it decodes to, on
the state without that input. The input list is the model's (log 14). -/
def Obligations.StepRunsDecodedOperation : Prop :=
  ∀ (s : State) (r : Request) (i : Instr) (rest : List Input),
    s.inputs = .request r :: rest → decode r = i → step s = exec i { s with inputs := rest }

/-- 30_encoding.md R61, R71, R73, with the op numbers of decision D4 and the bit order of the model (log 19):
words written out from the tables decode to the operations they stand for. -/
def Obligations.SampleWordsDecode : Prop :=
  decodeNat .command (0b000 + 113 * 2 ^ 3 + 0x100 * 2 ^ 35 + 0x200 * 2 ^ 99 + 7 * 2 ^ 163)
      = .ok (.install 113 0x100 0x200 7) ∧
  decodeNat .command (0b111 + 3 * 2 ^ 3) = .ok (.groupMask 3) ∧
  decodeNat .command (0b110 + 0xFFFFFFFF * 2 ^ 3) = .ok .version ∧
  decodeNat .encodeFrom (0x100 * 2 ^ 3 + 7) = .ok (.encodeFrom 0x100 7) ∧
  decodeNat .decodeSizeClass 0x107 = .ok (.decodeSizeClass 0x107) ∧
  decodeNat .translate 0x80000100 = .ok (.translate 0x80000100) ∧
  decodeNat .encodeTo (2 ^ 64) = .error .widerThanPort

/-- 30_encoding.md R60, R61, R71, R72 (ports and numbers: decisions D3, D4; bit order: log 19; a port group per
codec unit: log 22): every operation, with every operand, is what its encoding decodes to, and the number fits the
operation's port. -/
def Obligations.DecodeOfEncodeIsIdentity : Prop :=
  ∀ i : Instr, decode (encode i) = i ∧ decodeNat i.port (encode i).toNat = .ok i

/-- 30_encoding.md R62 (decision D23): two presentations that agree on `op` and on the ports the operation uses
have the same effect, whatever the other ports carry. -/
def Obligations.UnusedPortsAreIgnored : Prop :=
  ∀ v w : BitVec 166, opPort v = opPort w →
    (opPort v = 3 ∨ opPort v = 6 ∨ indexPort v = indexPort w) →
    (opPort v = 0 → fromOffsetPort v = fromOffsetPort w ∧ toOffsetPort v = toOffsetPort w ∧
      sizeClassPort v = sizeClassPort w) →
    ∀ s, exec (decode (.command v)) s = exec (decode (.command w)) s

/-- 60_exceptions.md R118: no operation and no error halts, locks or blocks the machine: from every state it takes
a next state, and that state accepts any operation. -/
def Obligations.BlockNeverStops : Prop :=
  ∀ s : State, ∃ t, step s = .next t ∧ ∀ i, ∃ u, exec i t = .next u

/-- 00_scope.md R12, R13 (decision D1): the block takes no step of its own. With no input pending nothing changes. -/
def Obligations.BlockHasNoStepOfItsOwn : Prop :=
  ∀ s : State, s.inputs = [] → step s = .next s

/-- 20_memory.md R54 (decision D20): the state after a run of presentations is the fold of the operations over
them, in order. -/
def Obligations.RunIsFoldOfOperations : Prop :=
  ∀ (rs : List Request) (s : State) (rest : List Input), s.inputs = rs.map Input.request ++ rest →
    Host.Core.run Sys2Proof.core rs.length s = execAll (rs.map decode) { s with inputs := rest }

/-! Reset and the invariant -/

/-- 10_state.md R32, 70_reset_and_hazards.md R130 (decision D13: the source has no reset; log 15): after reset
every slot is absent, every validity word 0, every translation the identity, and the four commands that need an
entry fail at every index; a reset while running empties the table and leaves the rest alone. -/
def Obligations.ResetLeavesEmptyTable : Prop :=
  (∀ i, State.reset.entry i = none) ∧
  (∀ g, State.reset.validWord g = 0) ∧
  (∀ a, State.reset.translation a = { hit := false, addr := a }) ∧
  (∀ idx, ∀ i ∈ [Instr.enable idx, .disable idx, .readFrom idx, .readTo idx],
    exec i State.reset = .next { State.reset with output := some (.response (.error .notInstalled)) }) ∧
  ∀ (s : State) (rest : List Input), s.inputs = .reset :: rest →
    step s = .next { s with table := State.reset.table, output := none, inputs := rest }

/-- 10_state.md R24, R25 and the canonical forms (log 16, log 20): the reset state meets the invariant. -/
def Obligations.ResetMeetsInvariant : Prop := State.reset.wf = true

/-- 10_state.md R20, R22, R25 (an inference of the spec): whatever the input, a step keeps every listed index below
`CAPACITY` and listed once, every stored entry's class legal and both its offsets multiples of that class's
granularity, and the memory in canonical form. -/
def Obligations.StepKeepsTableAndMemoryForm : Prop :=
  ∀ s t : State, s.wf = true → step s = .next t → t.wf = true

/-- 10_state.md R28, R33: no operation, no access and no reset changes the configuration, `VERSION_ID` in it. -/
def Obligations.StepKeepsConfiguration : Prop :=
  ∀ s t : State, step s = .next t → t.cfg = s.cfg

/-! The table commands -/

/-- 41_table_commands.md R91, R26 (class granularity: decision D8, log 4): with an index below `CAPACITY` and both
offsets multiples of `GRAN(size_class)`, `INSTALL` answers OK and stores the whole entry, disabled, whatever the
slot held; every other slot, every byte of memory and all else is as before. -/
def Obligations.InstallStoresDisabledEntry : Prop :=
  ∀ (s : State) (idx : Index) (f o : Addr) (c : SizeClass),
    idx.toNat < s.cfg.capacity →
    f.toNat % gran s.cfg c = 0 → o.toNat % gran s.cfg c = 0 →
    ∃ t, exec (.install idx f o c) s = .next t ∧
      t.output = some (.response .ok) ∧
      t.entry idx.toNat = some { pfrom := f ||| c.setWidth 64, pto := o, enabled := false } ∧
      (∀ j, j ≠ idx.toNat → t.entry j = s.entry j) ∧
      (∀ a, t.readByte a = s.readByte a) ∧
      t.cfg = s.cfg ∧ t.inputs = s.inputs ∧ t.choices = s.choices

/-- 60_exceptions.md R113, R115 (order of checks: decision D9, log 5): an index at or above `CAPACITY` gives
`IndexOutOfRange` whatever the other operands, and changes nothing; no other operation ever answers it. -/
def Obligations.IndexOutOfRangeExactly : Prop :=
  (∀ (s : State) (idx : Index) (f o : Addr) (c : SizeClass), s.cfg.capacity ≤ idx.toNat →
    exec (.install idx f o c) s = .next { s with output := some (.response (.error .indexOutOfRange)) }) ∧
  ∀ (i : Instr) (s t : State), exec i s = .next t →
    t.output = some (.response (.error .indexOutOfRange)) →
    ∃ idx f o c, i = .install idx f o c ∧ s.cfg.capacity ≤ idx.toNat

/-- 60_exceptions.md R111: `INSTALL` answers `AlignmentError` iff the index is in range and an offset is no multiple
of the class's granularity; `ENCODE_FROM` iff a low bit of the offset is set; `ENCODE_TO` iff the offset is no
multiple of 16 (`MIN_GRAN` and the field width at the reference values: log 23); no other operation does. No offset
is rounded: what a slot holds after an `INSTALL` is what it held before, or the operands themselves, aligned. -/
def Obligations.AlignmentErrorExactly : Prop :=
  (∀ (s t : State) (idx : Index) (f o : Addr) (c : SizeClass), exec (.install idx f o c) s = .next t →
    (t.output = some (.response (.error .alignmentError)) ↔
      idx.toNat < s.cfg.capacity ∧ (f.toNat % gran s.cfg c ≠ 0 ∨ o.toNat % gran s.cfg c ≠ 0)) ∧
    ∀ j, t.entry j = s.entry j ∨
      (t.entry j = some (newEntry f o c) ∧ f.toNat % gran s.cfg c = 0 ∧ o.toNat % gran s.cfg c = 0)) ∧
  (∀ (s t : State) (f : Addr) (c : SizeClass), exec (.encodeFrom f c) s = .next t →
    (t.output = some (.packedFrom .alignmentError) ↔ f.extractLsb' 0 4 ≠ 0)) ∧
  (∀ (s t : State) (o : Addr), exec (.encodeTo o) s = .next t →
    (t.output = some (.packedTo .alignmentError) ↔ o.toNat % 16 ≠ 0)) ∧
  ∀ (i : Instr) (s t : State), exec i s = .next t →
    (t.output = some (.response (.error .alignmentError)) → ∃ idx f o c, i = .install idx f o c) ∧
    (t.output = some (.packedFrom .alignmentError) → ∃ f c, i = .encodeFrom f c) ∧
    (t.output = some (.packedTo .alignmentError) → ∃ o, i = .encodeTo o)

/-- 41_table_commands.md R92, R93: on an installed entry `ENABLE` and `DISABLE` answer OK, set or clear its one bit
and leave its packed values, every other slot, every byte of memory and all else as before; doing the same again
changes nothing more. -/
def Obligations.EnableDisableWriteOneBit : Prop :=
  ∀ (s : State) (idx : Index) (e : Slot) (b : Bool), s.entry idx.toNat = some e →
    ∃ t, exec (if b then .enable idx else .disable idx) s = .next t ∧
      t.output = some (.response .ok) ∧
      t.entry idx.toNat = some { pfrom := e.pfrom, pto := e.pto, enabled := b } ∧
      (∀ j, j ≠ idx.toNat → t.entry j = s.entry j) ∧
      (∀ a, t.readByte a = s.readByte a) ∧
      t.cfg = s.cfg ∧ t.inputs = s.inputs ∧ t.choices = s.choices ∧
      exec (if b then .enable idx else .disable idx) t = .next t

/-- 41_table_commands.md R95, R96: on an installed entry `READ_FROM` and `READ_TO` return the stored packed values,
enabled or not, and change nothing. -/
def Obligations.ReadsReturnStoredValues : Prop :=
  ∀ (s : State) (idx : Index) (e : Slot), s.entry idx.toNat = some e →
    exec (.readFrom idx) s = .next { s with output := some (.response (.value e.pfrom)) } ∧
    exec (.readTo idx) s = .next { s with output := some (.response (.value e.pto)) }

/-- 60_exceptions.md R114 (an index at or above `CAPACITY`: decision D10, log 6): `NotInstalled` is the answer of
`ENABLE`, `DISABLE`, `READ_FROM` and `READ_TO` iff no entry is present at the index, nothing changes then, and no
other operation answers it. -/
def Obligations.NotInstalledExactly : Prop :=
  (∀ (s : State) (idx : Index) (i : Instr),
    i ∈ [Instr.enable idx, .disable idx, .readFrom idx, .readTo idx] →
    (s.entry idx.toNat = none →
      exec i s = .next { s with output := some (.response (.error .notInstalled)) }) ∧
    (s.cfg.capacity ≤ idx.toNat → s.entry idx.toNat = none) ∧
    ∀ t, exec i s = .next t → t.output = some (.response (.error .notInstalled)) → s.entry idx.toNat = none) ∧
  ∀ (i : Instr) (s t : State), exec i s = .next t → t.output = some (.response (.error .notInstalled)) →
    ∃ idx, i ∈ [Instr.enable idx, .disable idx, .readFrom idx, .readTo idx]

/-- 41_table_commands.md R94: `FLUSH` always answers OK and empties the table in one transition, configuration and
memory untouched: no slot is present, every word is 0, every translation is the identity, the four commands that
need an entry fail at every index, and the table is that of the reset state. -/
def Obligations.FlushEmptiesTable : Prop :=
  ∀ s : State, ∃ t, exec .flush s = .next t ∧
    t = { s with table := State.reset.table, output := some (.response .ok) } ∧
    (∀ i, t.entry i = none) ∧
    (∀ g, t.validWord g = 0) ∧
    (∀ a, t.translation a = { hit := false, addr := a }) ∧
    ∀ idx, ∀ i ∈ [Instr.enable idx, .disable idx, .readFrom idx, .readTo idx],
      exec i t = .next { t with output := some (.response (.error .notInstalled)) }

/-- 41_table_commands.md R97: `VERSION` returns `VERSION_ID`, zero extended, in every state, and the same one after
any other operation, errors and `FLUSH` among them; it changes nothing. -/
def Obligations.VersionReturnsConstant : Prop :=
  ∀ s : State,
    exec .version s = .next { s with output := some (.response (.value (s.cfg.versionId.setWidth 64))) } ∧
    ∀ (i : Instr) (t : State), exec i s = .next t →
      exec .version t = .next { t with output := some (.response (.value (s.cfg.versionId.setWidth 64))) }

/-- 70_reset_and_hazards.md R138: after a `FLUSH`, through any further operations, the four commands that need an
entry answer `NotInstalled` at an index until an `INSTALL` there succeeds. That they change nothing else then is
60_exceptions.md R116 (decision D12, log 8); an index at or above `CAPACITY` is R114 (decision D10, log 6). -/
def Obligations.FlushedEntryMustBeReinstalled : Prop :=
  ∀ (s t u : State) (idx : Index) (run : List Instr),
    exec .flush s = .next t → NotReinstalled idx run t → execAll run t = .next u →
    ∀ i ∈ [Instr.enable idx, .disable idx, .readFrom idx, .readTo idx],
      exec i u = .next { u with output := some (.response (.error .notInstalled)) }

/-- 41_table_commands.md R98 (an inference of the spec): after an `INSTALL` that succeeds, through any operations
but a `FLUSH` and a successful `INSTALL` at the same index, the two reads return values that the unpackers take
back to the offsets and the class. Class granularity: decision D8, log 4. -/
def Obligations.InstalledValuesReadBack : Prop :=
  ∀ (s t u : State) (idx : Index) (f o : Addr) (c : SizeClass) (run : List Instr),
    idx.toNat < s.cfg.capacity → f.toNat % gran s.cfg c = 0 → o.toNat % gran s.cfg c = 0 →
    exec (.install idx f o c) s = .next t →
    (∀ i ∈ run, i ≠ .flush) → NotReinstalled idx run t → execAll run t = .next u →
    ∃ p q : Addr,
      exec (.readFrom idx) u = .next { u with output := some (.response (.value p)) } ∧
      exec (.readTo idx) u = .next { u with output := some (.response (.value q)) } ∧
      exec (.decodeFromOffset p) u = .next { u with output := some (.fromOffset f) } ∧
      exec (.decodeSizeClass p) u = .next { u with output := some (.sizeClass (c.setWidth 4)) } ∧
      exec (.decodeToOffset q) u = .next { u with output := some (.toOffset o) }

/-- 41_table_commands.md R99: an operation changes no slot but its own, `FLUSH` empties every slot, and reads and
failing commands change none; so a validity bit or a redirection changes only with its own slot (that a failing
command changes none: R116, decision D12, log 8). Configuration, pending inputs and every byte of memory, fields
that the model holds beside the table (log 1, log 14, log 16), are unchanged by every operation (R90, 10_state.md
R33, 20_memory.md R52, 40_codec.md R85). -/
def Obligations.FrameOfEveryOperation : Prop :=
  ∀ (i : Instr) (s t : State), exec i s = .next t →
    (∀ j, touches i j = false ∨ t.output ≠ some (.response .ok) →
      t.entry j = s.entry j ∧ t.validBit j = s.validBit j ∧ ∀ a, t.redirects j a = s.redirects j a) ∧
    (i = .flush → ∀ j, t.entry j = none) ∧
    (∀ a, t.readByte a = s.readByte a) ∧ t.cfg = s.cfg ∧ t.inputs = s.inputs

/-- 10_state.md R27, the transition table of a slot: under every operation slot `j` becomes what its life cycle
says, and a reset empties it. -/
def Obligations.SlotFollowsLifeCycle : Prop :=
  (∀ (i : Instr) (s t : State) (j : Nat), j < s.cfg.capacity → exec i s = .next t →
    t.entry j = lifeCycle s.cfg j i (s.entry j)) ∧
  ∀ (s t : State) (rest : List Input) (j : Nat), s.inputs = .reset :: rest → step s = .next t → t.entry j = none

/-- 60_exceptions.md R116, R119, R112 (general form: decision D12, log 8): an error leaves the state as it was but
for the response, and any later operation, the same one among them, does what it would have done without it. -/
def Obligations.ErrorsArePreciseAndNotSticky : Prop :=
  ∀ (i : Instr) (s t : State) (k : ErrorKind), exec i s = .next t →
    t.output = some (.response (.error k)) →
    t = { s with output := some (.response (.error k)) } ∧ ∀ j, exec j t = exec j s

/-- 20_memory.md R52 (an overlap is R44's, decision D16): the read commands, `VERSION`, `GROUP_MASK` and, where at
most one entry catches its address, `TRANSLATE` change nothing and answer the same when repeated. -/
def Obligations.ReadsHaveNoSideEffect : Prop :=
  ∀ (i : Instr) (s t : State),
    ((∃ idx, i ∈ [Instr.readFrom idx, .readTo idx, .groupMask idx]) ∨ i = .version ∨
      ∃ a, i = .translate a ∧ (s.matching a).length ≤ 1) →
    exec i s = .next t → t = { s with output := t.output } ∧ exec i t = .next t

/-- 41_table_commands.md R90, 10_state.md R33: a command's response and its effect depend on the table, `CAPACITY`,
`SPAN` and `VERSION_ID` alone, not on the bases, the memory, an earlier output or the counter of choices, and it
writes the table and the response alone. -/
def Obligations.CommandsReadTableAndConstantsOnly : Prop :=
  ∀ (i : Instr) (s s' t t' : State), i.port = .command →
    s.table = s'.table → s.cfg.capacity = s'.cfg.capacity → s.cfg.spanLog = s'.cfg.spanLog →
    s.cfg.versionId = s'.cfg.versionId →
    exec i s = .next t → exec i s' = .next t' →
    t.output = t'.output ∧ t.table = t'.table ∧ (∃ r, t.output = some (.response r)) ∧
      t = { s with table := t.table, output := t.output }

/-- 30_encoding.md R64, R65 (numbers and the driven 0: decision D5, log 18): the values on the response ports. -/
def Obligations.ResponsePortValues : Prop :=
  Response.status .ok = 0 ∧ (∀ v, Response.status (.value v) = 0) ∧
  Response.status (.error .alignmentError) = 1 ∧ Response.status (.error .indexOutOfRange) = 2 ∧
  Response.status (.error .notInstalled) = 3 ∧
  Response.data .ok = 0 ∧ (∀ v, Response.data (.value v) = v) ∧ ∀ k, Response.data (.error k) = 0

/-! The validity words -/

/-- 42_validity.md R100: `GROUP_MASK` answers, in every state and for every group index, with a 32-bit word, zero
extended, whose bit `k` is 1 iff entry `32 * group_index + k` (no wrap) is installed and enabled; it changes
nothing. With the table empty the word is 0. -/
def Obligations.GroupMaskReportsEnabledEntries : Prop :=
  ∀ (s : State) (g : Index), ∃ m : Word32,
    exec (.groupMask g) s = .next { s with output := some (.response (.value (m.setWidth 64))) } ∧
    (∀ k, k < 32 →
      (m.getLsbD k = true ↔ ∃ e, s.entry (32 * g.toNat + k) = some e ∧ e.enabled = true)) ∧
    (s.table = [] → m = 0)

/-- 42_validity.md R101 (decision D11, log 7): an index with no slot contributes a 0 bit, so a group past the last
answers 0. -/
def Obligations.IndicesWithNoSlotReadZero : Prop :=
  ∀ (s : State) (g : Index),
    (∀ k, s.cfg.capacity ≤ 32 * g.toNat + k → (s.validWord g.toNat).getLsbD k = false) ∧
    (s.cfg.ngroups ≤ g.toNat → exec (.groupMask g) s = .next { s with output := some (.response (.value 0)) })

/-- 42_validity.md R102 (an inference of the spec): the continuously driven words are those `GROUP_MASK` returns,
and in one vector their bit `i` says whether entry `i` is installed and enabled. -/
def Obligations.ValidVectorConcatenatesWords : Prop :=
  ∀ s : State,
    (∀ g : Index,
      exec (.groupMask g) s = .next { s with output := some (.response (.value ((s.validWord g.toNat).setWidth 64))) }) ∧
    (∀ g k, g < s.cfg.ngroups → k < 32 → s.validVector.getLsbD (32 * g + k) = (s.validWord g).getLsbD k) ∧
    ∀ i, s.validVector.getLsbD i = true ↔ ∃ e, s.entry i = some e ∧ e.enabled = true

/-- 42_validity.md R104 and 20_memory.md R49 (inferences of the spec): what each successful command does to its own
validity bit and its own redirection. -/
def Obligations.MutationsMoveBitAndRedirection : Prop :=
  ∀ (s t : State) (idx : Index),
    (∀ f o c, exec (.install idx f o c) s = .next t → t.output = some (.response .ok) →
      t.validBit idx.toNat = false ∧ ∀ a, t.redirects idx.toNat a = false) ∧
    (exec (.enable idx) s = .next t → t.output = some (.response .ok) →
      t.validBit idx.toNat = true ∧
        ∃ e, s.entry idx.toNat = some e ∧ ∀ a, t.redirects idx.toNat a = inSource s.cfg e a) ∧
    (exec (.disable idx) s = .next t → t.output = some (.response .ok) →
      t.validBit idx.toNat = false ∧ ∀ a, t.redirects idx.toNat a = false) ∧
    (exec .flush s = .next t → ∀ j, t.validBit j = false ∧ ∀ a, t.redirects j a = false)

/-- 42_validity.md R104, last sentence (an inference of the spec): over all words, as many bits are set as the table
has enabled entries. -/
def Obligations.SetBitsCountEnabledEntries : Prop :=
  ∀ s : State, s.wf = true →
    ((List.range s.cfg.ngroups).map fun g => countBelow (s.validWord g).getLsbD 32).sum =
      (s.table.filter fun p => p.2.enabled).length

/-! The codec -/

/-- 40_codec.md R80, R81: `ENCODE_FROM` packs an offset whose low 4 bits are 0 by or-ing the class in, and else
answers `AlignmentError`, whatever the class; `ENCODE_TO` answers the offset itself if it is a multiple of 16, and
else `AlignmentError`. Neither changes anything. -/
def Obligations.EncodersCheckReservedBits : Prop :=
  ∀ (s : State) (f o : Addr) (c : SizeClass),
    (f.extractLsb' 0 4 = 0 →
      exec (.encodeFrom f c) s = .next { s with output := some (.packedFrom (.ok (f ||| c.setWidth 64))) }) ∧
    (f.extractLsb' 0 4 ≠ 0 →
      exec (.encodeFrom f c) s = .next { s with output := some (.packedFrom .alignmentError) }) ∧
    (o.toNat % 16 = 0 → exec (.encodeTo o) s = .next { s with output := some (.packedTo (.ok o)) }) ∧
    (o.toNat % 16 ≠ 0 → exec (.encodeTo o) s = .next { s with output := some (.packedTo .alignmentError) })

/-- 40_codec.md R82 (reserved inputs: decision D27, log 12), R83, R84: the decoders answer, for every input, the
4-bit field `SC`, the upper 60 bits over four zeros, and the input itself. They change nothing. -/
def Obligations.DecodersExtractFields : Prop :=
  ∀ (s : State) (p : Addr),
    exec (.decodeSizeClass p) s = .next { s with output := some (.sizeClass (p.extractLsb' 0 4)) } ∧
    exec (.decodeFromOffset p) s = .next { s with output := some (.fromOffset (p.extractLsb' 4 60 ++ 0#4)) } ∧
    exec (.decodeToOffset p) s = .next { s with output := some (.toOffset p) }

/-- 40_codec.md R86 (an inference of the spec): unpacking undoes packing, packing undoes unpacking where bit 3 is
clear, and `ENCODE_FROM` is injective where it succeeds. -/
def Obligations.PackingRoundTrips : Prop :=
  (∀ (f : Addr) (c : SizeClass), f.extractLsb' 0 4 = 0 →
    ∃ p, packFrom f c = .ok p ∧ fromOffsetOf p = f ∧ scField p = c.setWidth 4) ∧
  (∀ o : Addr, o.extractLsb' 0 4 = 0 → ∃ q, packTo o = .ok q ∧ toOffsetOf q = o) ∧
  (∀ p : Addr, p.getLsbD 3 = false → packFrom (fromOffsetOf p) ((scField p).setWidth 3) = .ok p) ∧
  ∀ (f f' : Addr) (c c' : SizeClass) (p : Addr), packFrom f c = .ok p → packFrom f' c' = .ok p → f = f' ∧ c = c'

/-- 40_codec.md R87, 00_scope.md R8 (decision D8, log 4; `MIN_GRAN` = 16: log 23): the class granularity is a
multiple of 16, so an offset that passes the class check passes both packers; where the span is 16 the two checks
are the same. -/
def Obligations.ClassCheckImpliesPackerChecks : Prop :=
  ∀ (cfg : Config) (c : SizeClass) (x : Addr),
    16 ∣ gran cfg c ∧
    (x.toNat % gran cfg c = 0 → packFrom x c = .ok (x ||| c.setWidth 64) ∧ packTo x = .ok x) ∧
    (span cfg c = 16 → (x.toNat % gran cfg c = 0 ↔ packTo x = .ok x))

/-- 40_codec.md R85: a codec unit's answer depends on its operands alone, from whatever state; the unit changes
nothing, and the only failure is `AlignmentError`, raised by the two encoders. -/
def Obligations.CodecIsPure : Prop :=
  ∀ (i : Instr) (s s' t t' : State),
    i.port ∈ [Port.encodeFrom, .encodeTo, .decodeSizeClass, .decodeFromOffset, .decodeToOffset] →
    exec i s = .next t → exec i s' = .next t' →
    t.output = t'.output ∧ t = { s with output := t.output } ∧
    (∀ r, t.output ≠ some (.response r)) ∧
    (t.output = some (.packedFrom .alignmentError) → i.port = .encodeFrom) ∧
    (t.output = some (.packedTo .alignmentError) → i.port = .encodeTo)

/-! Translation and the bus -/

/-- 20_memory.md R43, R44 (decisions D15, D16, D17; log 9, log 10, log 11): `TRANSLATE` answers in every state. Where
no enabled entry's source range holds the address it is the identity; where exactly one does, the matching byte of
its destination range; where several do, that of some one of them. It changes nothing but the model's count of
choices, and that only in the last case. -/
def Obligations.TranslationFollowsMatchingEntry : Prop :=
  ∀ (s : State) (a : Addr), ∃ (t : State) (r : Translation),
    exec (.translate a) s = .next t ∧ t.output = some (.translated r) ∧
    s.mayTranslate a r ∧
    (∀ i e, s.entry i = some e → e.enabled = true →
      (a - s.cfg.fromBase - (e.pfrom &&& 0xFFFFFFFFFFFFFFF0#64)).toNat < spanOfField s.cfg (scField e.pfrom) →
      (∀ j, j ≠ i → s.redirects j a = false) →
      r = { hit := true,
            addr := s.cfg.toBase + e.pto + (a - s.cfg.fromBase - (e.pfrom &&& 0xFFFFFFFFFFFFFFF0#64)) }) ∧
    t = { s with output := t.output, choices := t.choices } ∧
    ((s.matching a).length ≤ 1 → t.choices = s.choices)

/-- 20_memory.md R44, 70_reset_and_hazards.md R139 (decision D16, log 9): while software keeps the source ranges of
enabled entries disjoint, no free choice shows: the translation is the same whatever the counter of choices. -/
def Obligations.DisjointRangesNeedNoChoice : Prop :=
  ∀ (s : State), s.disjointSources → ∀ (n : Nat) (a : Addr) (i : Nat) ,
    { s with choices := n }.translation a = s.translation a ∧
    (s.redirects i a = true → s.translation a = { hit := true, addr := s.destinationOf i a })

/-- 70_reset_and_hazards.md R133, 20_memory.md R42, R43, R49 (decisions D8, D15, D17; log 4, log 10, log 11): the
scenario of the source. `INSTALL` alone redirects nothing; after `ENABLE`, byte `k` of the source range goes to byte
`k` of the destination range; after `DISABLE` it is itself again. Other entries must not catch the address (R139).
-/
def Obligations.InstallThenEnableRedirects : Prop :=
  ∀ (s : State) (idx : Index) (f o k : Addr) (c : SizeClass),
    idx.toNat < s.cfg.capacity → f.toNat % gran s.cfg c = 0 → o.toNat % gran s.cfg c = 0 →
    k.toNat < span s.cfg c →
    (∀ j, j ≠ idx.toNat → s.redirects j (s.cfg.fromBase + f + k) = false) →
    ∃ t u v,
      exec (.install idx f o c) s = .next t ∧
      t.translation (s.cfg.fromBase + f + k) = { hit := false, addr := s.cfg.fromBase + f + k } ∧
      exec (.enable idx) t = .next u ∧
      u.translation (s.cfg.fromBase + f + k) = { hit := true, addr := s.cfg.toBase + o + k } ∧
      exec (.disable idx) u = .next v ∧
      v.translation (s.cfg.fromBase + f + k) = { hit := false, addr := s.cfg.fromBase + f + k }

/-- 20_memory.md R44, R45, R47 (decisions D16, D17, D18; log 10): a bus read of `n` bytes returns, in address order,
the byte at each address's own translation, all by the same table, and changes neither table nor memory. That a
byte which R44 leaves open draws a choice of its own (log 9), and that the access waits in a list (log 14), are
the model's choices; what an unwritten byte reads as is free (log 16). -/
def Obligations.BusReadTranslatesEachByte : Prop :=
  ∀ (s : State) (a : Addr) (n : Nat) (rest : List Input), s.inputs = .busRead a n :: rest →
    ∃ (t : State) (bytes : List Byte), step s = .next t ∧ t.output = some (.busData bytes) ∧
      bytes.length = n ∧
      (∀ k, k < n → bytes[k]? = some (s.readByte (s.byteTarget a k).addr) ∧
        s.mayTranslate (byteAddr a k) (s.byteTarget a k)) ∧
      (∀ p, t.readByte p = s.readByte p) ∧ t.table = s.table ∧ t.cfg = s.cfg ∧ t.inputs = rest

/-- 20_memory.md R44, R46, R47 (writes: decision D17; D16, D18; log 10): a bus write stores each byte at its
address's own translation, in address order, so that the last byte stored to an address stays; every other byte of
memory, the table and the rest are as before. That a byte which R44 leaves open draws a choice of its own (log 9),
and that the access waits in a list (log 14), are the model's choices. -/
def Obligations.BusWriteTranslatesEachByte : Prop :=
  ∀ (s : State) (a : Addr) (bytes : List Byte) (rest : List Input), s.inputs = .busWrite a bytes :: rest →
    ∃ t : State, step s = .next t ∧ t.output = some .busDone ∧
      (∀ p, (∀ k, k < bytes.length → (s.byteTarget a k).addr ≠ p) → t.readByte p = s.readByte p) ∧
      (∀ k, k < bytes.length →
        (∀ m, k < m → m < bytes.length → (s.byteTarget a m).addr ≠ (s.byteTarget a k).addr) →
        bytes[k]? = some (t.readByte (s.byteTarget a k).addr)) ∧
      t.table = s.table ∧ t.cfg = s.cfg ∧ t.inputs = rest
end

