-- ==== Sys2Proof/Laws/Keyed.lean ====
section
/-! SUPPORT. What the ordered listings of the table and of the memory answer. -/

namespace Sys2Proof.Machine

variable {α : Type}

/-- Reading a key after writing a key, in any listing. -/
theorem Keyed.find_put (k j : Nat) (v : α) (l : List (Nat × α)) :
    Keyed.find k (Keyed.put j v l) = if k = j then some v else Keyed.find k l := by
  induction l with
  | nil => simp [Keyed.put, Keyed.find]
  | cons p rest ih =>
    obtain ⟨i, w⟩ := p
    simp only [Keyed.put]
    split
    · simp [Keyed.find]
    · split
      · subst_vars
        by_cases h : k = i <;> simp [Keyed.find, h]
      · by_cases h : k = i
        · subst h
          have hne : ¬ k = j := fun e => by simp_all
          simp [Keyed.find, hne]
        · simp [Keyed.find, h, ih]

/-- A listing has its least key first. -/
theorem Keyed.rising_cons (p : Nat × α) (l : List (Nat × α)) :
    Keyed.rising (p :: l) = true ↔ (∀ q ∈ l, p.1 < q.1) ∧ Keyed.rising l = true := by
  induction l generalizing p with
  | nil => simp [Keyed.rising]
  | cons a rest ih =>
    simp only [Keyed.rising, Bool.and_eq_true, decide_eq_true_eq, List.mem_cons, forall_eq_or_imp]
    constructor
    · rintro ⟨h1, h2⟩
      have := (ih a).1 h2
      exact ⟨⟨h1, fun q hq => lt_trans h1 (this.1 q hq)⟩, h2⟩
    · rintro ⟨⟨h1, _⟩, h2⟩
      exact ⟨h1, h2⟩

/-- What a listing holds after a write. -/
theorem Keyed.mem_put {k : Nat} {v : α} {l : List (Nat × α)} {q : Nat × α}
    (h : q ∈ Keyed.put k v l) : q = (k, v) ∨ q ∈ l := by
  induction l with
  | nil => simpa [Keyed.put] using h
  | cons p rest ih =>
    obtain ⟨j, w⟩ := p
    simp only [Keyed.put] at h
    split at h
    · simpa using h
    · split at h
      · rcases List.mem_cons.1 h with h | h
        · exact .inl h
        · exact .inr (List.mem_cons_of_mem _ h)
      · rcases List.mem_cons.1 h with h | h
        · exact .inr (h ▸ List.mem_cons_self)
        · exact (ih h).imp_right (List.mem_cons_of_mem _)

/-- A write keeps the order of the keys. -/
theorem Keyed.rising_put (k : Nat) (v : α) (l : List (Nat × α)) (h : Keyed.rising l = true) :
    Keyed.rising (Keyed.put k v l) = true := by
  induction l with
  | nil => rfl
  | cons p rest ih =>
    obtain ⟨j, w⟩ := p
    have hp := (Keyed.rising_cons _ _).1 h
    simp only [Keyed.put]
    split
    · rename_i hlt
      refine (Keyed.rising_cons _ _).2 ⟨?_, h⟩
      intro q hq
      rcases List.mem_cons.1 hq with rfl | hq
      · exact hlt
      · exact lt_trans hlt (hp.1 q hq)
    · split
      · rename_i heq
        exact (Keyed.rising_cons _ _).2 ⟨fun q hq => heq ▸ hp.1 q hq, hp.2⟩
      · refine (Keyed.rising_cons _ _).2 ⟨?_, ih hp.2⟩
        intro q hq
        rcases Keyed.mem_put hq with rfl | hq
        · simp only; omega
        · exact hp.1 q hq

/-- A key that a listing answers for is listed. -/
theorem Keyed.mem_of_find {k : Nat} {v : α} {l : List (Nat × α)} (h : Keyed.find k l = some v) : (k, v) ∈ l := by
  induction l with
  | nil => simp [Keyed.find] at h
  | cons p rest ih =>
    obtain ⟨j, w⟩ := p
    simp only [Keyed.find] at h
    split at h
    · simp_all
    · exact List.mem_cons_of_mem _ (ih h)

end Sys2Proof.Machine
end

