-- ==== Sys2Proof/Laws/State.lean ====
section
/-! SUPPORT. One lemma per field per update of the state: no later proof unfolds a record update. -/

namespace Sys2Proof.Machine

@[simp] theorem emit_cfg (s : State) (o : Output) : (s.emit o).cfg = s.cfg := rfl
@[simp] theorem emit_table (s : State) (o : Output) : (s.emit o).table = s.table := rfl
@[simp] theorem emit_mem (s : State) (o : Output) : (s.emit o).mem = s.mem := rfl
@[simp] theorem emit_output (s : State) (o : Output) : (s.emit o).output = some o := rfl
@[simp] theorem emit_inputs (s : State) (o : Output) : (s.emit o).inputs = s.inputs := rfl
@[simp] theorem emit_choices (s : State) (o : Output) : (s.emit o).choices = s.choices := rfl
@[simp] theorem emit_emit (s : State) (o p : Output) : (s.emit o).emit p = s.emit p := rfl

@[simp] theorem respond_cfg (s : State) (r : Response) : (s.respond r).cfg = s.cfg := rfl
@[simp] theorem respond_table (s : State) (r : Response) : (s.respond r).table = s.table := rfl
@[simp] theorem respond_mem (s : State) (r : Response) : (s.respond r).mem = s.mem := rfl
@[simp] theorem respond_output (s : State) (r : Response) : (s.respond r).output = some (.response r) := rfl
@[simp] theorem respond_inputs (s : State) (r : Response) : (s.respond r).inputs = s.inputs := rfl
@[simp] theorem respond_choices (s : State) (r : Response) : (s.respond r).choices = s.choices := rfl

@[simp] theorem raise_cfg (s : State) (k : ErrorKind) : (s.raise k).cfg = s.cfg := rfl
@[simp] theorem raise_table (s : State) (k : ErrorKind) : (s.raise k).table = s.table := rfl
@[simp] theorem raise_mem (s : State) (k : ErrorKind) : (s.raise k).mem = s.mem := rfl
@[simp] theorem raise_output (s : State) (k : ErrorKind) :
    (s.raise k).output = some (.response (.error k)) := rfl
@[simp] theorem raise_inputs (s : State) (k : ErrorKind) : (s.raise k).inputs = s.inputs := rfl
@[simp] theorem raise_choices (s : State) (k : ErrorKind) : (s.raise k).choices = s.choices := rfl

@[simp] theorem setEntry_cfg (s : State) (i : Nat) (e : Slot) : (s.setEntry i e).cfg = s.cfg := rfl
@[simp] theorem setEntry_table (s : State) (i : Nat) (e : Slot) :
    (s.setEntry i e).table = Keyed.put i e s.table := rfl
@[simp] theorem setEntry_mem (s : State) (i : Nat) (e : Slot) : (s.setEntry i e).mem = s.mem := rfl
@[simp] theorem setEntry_output (s : State) (i : Nat) (e : Slot) : (s.setEntry i e).output = s.output := rfl
@[simp] theorem setEntry_inputs (s : State) (i : Nat) (e : Slot) : (s.setEntry i e).inputs = s.inputs := rfl
@[simp] theorem setEntry_choices (s : State) (i : Nat) (e : Slot) : (s.setEntry i e).choices = s.choices := rfl

@[simp] theorem clearTable_cfg (s : State) : s.clearTable.cfg = s.cfg := rfl
@[simp] theorem clearTable_table (s : State) : s.clearTable.table = [] := rfl
@[simp] theorem clearTable_mem (s : State) : s.clearTable.mem = s.mem := rfl
@[simp] theorem clearTable_output (s : State) : s.clearTable.output = s.output := rfl
@[simp] theorem clearTable_inputs (s : State) : s.clearTable.inputs = s.inputs := rfl
@[simp] theorem clearTable_choices (s : State) : s.clearTable.choices = s.choices := rfl

@[simp] theorem writeByte_cfg (s : State) (a : Addr) (b : Byte) : (s.writeByte a b).cfg = s.cfg := rfl
@[simp] theorem writeByte_table (s : State) (a : Addr) (b : Byte) : (s.writeByte a b).table = s.table := rfl
@[simp] theorem writeByte_mem (s : State) (a : Addr) (b : Byte) :
    (s.writeByte a b).mem = s.mem.write a b := rfl
@[simp] theorem writeByte_output (s : State) (a : Addr) (b : Byte) : (s.writeByte a b).output = s.output := rfl
@[simp] theorem writeByte_inputs (s : State) (a : Addr) (b : Byte) : (s.writeByte a b).inputs = s.inputs := rfl
@[simp] theorem writeByte_choices (s : State) (a : Addr) (b : Byte) :
    (s.writeByte a b).choices = s.choices := rfl

@[simp] theorem drawChoice_cfg (s : State) : s.drawChoice.cfg = s.cfg := rfl
@[simp] theorem drawChoice_table (s : State) : s.drawChoice.table = s.table := rfl
@[simp] theorem drawChoice_mem (s : State) : s.drawChoice.mem = s.mem := rfl
@[simp] theorem drawChoice_output (s : State) : s.drawChoice.output = s.output := rfl
@[simp] theorem drawChoice_inputs (s : State) : s.drawChoice.inputs = s.inputs := rfl
@[simp] theorem drawChoice_choices (s : State) : s.drawChoice.choices = s.choices + 1 := rfl

@[simp] theorem withInputs_cfg (s : State) (l : List Input) : (s.withInputs l).cfg = s.cfg := rfl
@[simp] theorem withInputs_table (s : State) (l : List Input) : (s.withInputs l).table = s.table := rfl
@[simp] theorem withInputs_mem (s : State) (l : List Input) : (s.withInputs l).mem = s.mem := rfl
@[simp] theorem withInputs_output (s : State) (l : List Input) : (s.withInputs l).output = s.output := rfl
@[simp] theorem withInputs_inputs (s : State) (l : List Input) : (s.withInputs l).inputs = l := rfl
@[simp] theorem withInputs_choices (s : State) (l : List Input) : (s.withInputs l).choices = s.choices := rfl

@[simp] theorem applyReset_cfg (s : State) : s.applyReset.cfg = s.cfg := rfl
@[simp] theorem applyReset_table (s : State) : s.applyReset.table = [] := rfl
@[simp] theorem applyReset_mem (s : State) : s.applyReset.mem = s.mem := rfl
@[simp] theorem applyReset_output (s : State) : s.applyReset.output = none := rfl
@[simp] theorem applyReset_inputs (s : State) : s.applyReset.inputs = s.inputs := rfl
@[simp] theorem applyReset_choices (s : State) : s.applyReset.choices = s.choices := rfl

end Sys2Proof.Machine
end

