-- ==== Sys2Proof/Laws/Memory.lean ====
section
/-! SUPPORT. The platform's memory: reads after writes, and the canonical form. -/

namespace Sys2Proof.Machine

/-- A byte read after a byte written. -/
theorem Memory.read_write (m : Memory) (a p : Addr) (b : Byte) :
    (m.write a b).read p = if p = a then b else m.read p := by
  by_cases h : p = a
  · simp [Memory.read, Memory.write, Memory.listed, Keyed.find_put, h]
  · have : ¬ p.toNat = a.toNat := fun e => h (BitVec.eq_of_toNat_eq e)
    simp [Memory.read, Memory.write, Memory.listed, Keyed.find_put, h, this]

/-- The one operation that changes memory keeps its canonical form. -/
theorem Memory.wf_write (m : Memory) (a : Addr) (b : Byte) (h : m.wf = true) : (m.write a b).wf = true := by
  simp only [Memory.wf, Memory.write, Bool.and_eq_true, List.all_eq_true, decide_eq_true_eq] at h ⊢
  refine ⟨Keyed.rising_put _ _ _ h.1, fun q hq => ?_⟩
  rcases Keyed.mem_put hq with rfl | hq
  · exact a.isLt
  · exact h.2 q hq

/-- Memory at reset is in canonical form. -/
theorem Memory.wf_reset : State.reset.mem.wf = true := rfl

theorem readByte_writeByte (s : State) (a p : Addr) (b : Byte) :
    (s.writeByte a b).readByte p = if p = a then b else s.readByte p :=
  Memory.read_write _ _ _ _

@[simp] theorem readByte_emit (s : State) (o : Output) (a : Addr) : (s.emit o).readByte a = s.readByte a := rfl
@[simp] theorem readByte_respond (s : State) (r : Response) (a : Addr) :
    (s.respond r).readByte a = s.readByte a := rfl
@[simp] theorem readByte_raise (s : State) (k : ErrorKind) (a : Addr) :
    (s.raise k).readByte a = s.readByte a := rfl
@[simp] theorem readByte_setEntry (s : State) (i : Nat) (e : Slot) (a : Addr) :
    (s.setEntry i e).readByte a = s.readByte a := rfl
@[simp] theorem readByte_clearTable (s : State) (a : Addr) : s.clearTable.readByte a = s.readByte a := rfl
@[simp] theorem readByte_drawChoice (s : State) (a : Addr) : s.drawChoice.readByte a = s.readByte a := rfl

end Sys2Proof.Machine
end

