-- ==== Sys2Proof/Laws/Operands.lean ====
section
/-! SUPPORT. The operand forms: the granularity and the two packers. -/

namespace Sys2Proof.Machine

/-- The class granularity is a multiple of the minimum granularity (00_scope.md R8; 40_codec.md R87). -/
theorem minGran_dvd_gran (cfg : Config) (c : SizeClass) : Config.minGran ∣ gran cfg c := by
  have h : Config.minGran = 2 ^ 4 := rfl
  rw [gran, span, h]
  rcases Nat.le_total 4 (cfg.spanLog[c.toNat]'c.isLt) with hle | hle
  · rw [max_eq_right (Nat.pow_le_pow_right (by decide) hle)]
    exact Nat.pow_dvd_pow 2 hle
  · rw [max_eq_left (Nat.pow_le_pow_right (by decide) hle)]

/-- The low 4 bits are clear in the multiples of 16 and in no other value (00_scope.md R14). -/
theorem low_bits_clear (f : Addr) : f.extractLsb' 0 4 = 0 ↔ f.toNat % 16 = 0 := by
  rw [← BitVec.toNat_inj]
  simp [BitVec.extractLsb'_toNat]

/-- The class check, as arithmetic. -/
theorem aligned_iff (cfg : Config) (c : SizeClass) (x : Addr) : aligned cfg c x = true ↔ x.toNat % gran cfg c = 0 := by
  simp [aligned]

/-- An offset that passes the class check is a multiple of 16. -/
theorem aligned_mod {cfg : Config} {c : SizeClass} {x : Addr} (h : aligned cfg c x = true) : x.toNat % 16 = 0 :=
  Nat.mod_eq_zero_of_dvd
    (Nat.dvd_trans (minGran_dvd_gran cfg c) (Nat.dvd_of_mod_eq_zero ((aligned_iff cfg c x).1 h)))

/-- What `ENCODE_FROM` can answer (40_codec.md R80). -/
theorem packFrom_cases (f : Addr) (c : SizeClass) :
    (f.toNat % 16 = 0 ∧ packFrom f c = .ok (f ||| c.setWidth 64)) ∨
    (f.toNat % 16 ≠ 0 ∧ packFrom f c = .alignmentError) := by
  unfold packFrom
  by_cases h : f.toNat % 16 = 0
  · exact .inl ⟨h, if_pos ((low_bits_clear f).2 h)⟩
  · exact .inr ⟨h, if_neg fun hb => h ((low_bits_clear f).1 hb)⟩

/-- What `ENCODE_TO` can answer (40_codec.md R81). -/
theorem packTo_cases (t : Addr) :
    (t.toNat % 16 = 0 ∧ packTo t = .ok t) ∨ (t.toNat % 16 ≠ 0 ∧ packTo t = .alignmentError) := by
  unfold packTo
  by_cases h : t.toNat % 16 = 0
  · exact .inl ⟨h, if_pos h⟩
  · exact .inr ⟨h, if_neg h⟩

end Sys2Proof.Machine
end

