-- ==== Sys2Proof/Laws/Table.lean ====
section
/-! SUPPORT. The table: what its reads and writes answer, and what each table operation can do. -/

namespace Sys2Proof.Machine

@[simp] theorem entry_emit (s : State) (o : Output) (i : Nat) : (s.emit o).entry i = s.entry i := rfl
@[simp] theorem entry_respond (s : State) (r : Response) (i : Nat) : (s.respond r).entry i = s.entry i := rfl
@[simp] theorem entry_raise (s : State) (k : ErrorKind) (i : Nat) : (s.raise k).entry i = s.entry i := rfl
@[simp] theorem entry_drawChoice (s : State) (i : Nat) : s.drawChoice.entry i = s.entry i := rfl
@[simp] theorem entry_writeByte (s : State) (a : Addr) (b : Byte) (i : Nat) :
    (s.writeByte a b).entry i = s.entry i := rfl
@[simp] theorem entry_withInputs (s : State) (l : List Input) (i : Nat) : (s.withInputs l).entry i = s.entry i := rfl

@[simp] theorem entry_clearTable (s : State) (i : Nat) : s.clearTable.entry i = none := by
  simp [State.entry, Keyed.find]

@[simp] theorem entry_applyReset (s : State) (i : Nat) : s.applyReset.entry i = none := by
  simp [State.entry, Keyed.find]

/-- Only an index below `CAPACITY` has an entry (R20). -/
theorem entry_lt {s : State} {i : Nat} {e : Slot} (h : s.entry i = some e) : i < s.cfg.capacity := by
  by_contra hn
  simp [State.entry, hn] at h

/-- Reading a slot after writing a slot. -/
theorem entry_setEntry (s : State) (i j : Nat) (e : Slot) (hi : i < s.cfg.capacity) :
    (s.setEntry i e).entry j = if j = i then some e else s.entry j := by
  by_cases h : j = i
  · subst h
    simp [State.entry, hi, Keyed.find_put]
  · simp [State.entry, Keyed.find_put, h]

/-- What `INSTALL` can do: the three responses and what goes with each (R91, R115). -/
theorem install_cases (s : State) (i : Index) (f t : Addr) (c : SizeClass) :
    (s.cfg.capacity ≤ i.toNat ∧ s.install i f t c = s.raise .indexOutOfRange) ∨
    (i.toNat < s.cfg.capacity ∧ (aligned s.cfg c f = false ∨ aligned s.cfg c t = false) ∧
      s.install i f t c = s.raise .alignmentError) ∨
    (i.toNat < s.cfg.capacity ∧ aligned s.cfg c f = true ∧ aligned s.cfg c t = true ∧
      s.install i f t c =
        (s.setEntry i.toNat { pfrom := f ||| c.setWidth 64, pto := t, enabled := false }).respond .ok) := by
  by_cases h1 : s.cfg.capacity ≤ i.toNat
  · exact .inl ⟨h1, by simp [State.install, h1]⟩
  · refine .inr ?_
    rw [Nat.not_le] at h1
    have hn : ¬ s.cfg.capacity ≤ i.toNat := by omega
    cases hf : aligned s.cfg c f with
    | false => exact .inl ⟨h1, .inl rfl, by simp [State.install, hn, hf]⟩
    | true =>
      cases ht : aligned s.cfg c t with
      | false => exact .inl ⟨h1, .inr rfl, by simp [State.install, hn, hf, ht]⟩
      | true =>
        refine .inr ⟨h1, rfl, rfl, ?_⟩
        have hpf := (packFrom_cases f c).resolve_right fun h => h.1 (aligned_mod hf)
        have hpt := (packTo_cases t).resolve_right fun h => h.1 (aligned_mod ht)
        simp [State.install, hn, hf, ht, hpf.2, hpt.2]

/-- What `ENABLE` and `DISABLE` can do (R92, R93). -/
theorem setEnabled_cases (s : State) (i : Index) (b : Bool) :
    (s.entry i.toNat = none ∧ s.setEnabled i b = s.raise .notInstalled) ∨
    (∃ e, s.entry i.toNat = some e ∧
      s.setEnabled i b = (s.setEntry i.toNat { e with enabled := b }).respond .ok) := by
  cases h : s.entry i.toNat with
  | none => exact .inl ⟨rfl, by simp [State.setEnabled, h]⟩
  | some e => exact .inr ⟨e, rfl, by simp [State.setEnabled, h]⟩

/-- What `READ_FROM` and `READ_TO` can do (R95, R96). -/
theorem readField_cases (s : State) (i : Index) (field : Slot → Addr) :
    (s.entry i.toNat = none ∧ s.readField i field = s.raise .notInstalled) ∨
    (∃ e, s.entry i.toNat = some e ∧ s.readField i field = s.respond (.value (field e))) := by
  cases h : s.entry i.toNat with
  | none => exact .inl ⟨rfl, by simp [State.readField, h]⟩
  | some e => exact .inr ⟨e, rfl, by simp [State.readField, h]⟩

end Sys2Proof.Machine
end

