-- ==== Sys2Proof/Laws/Translation.lean ====
section
/-! SUPPORT. The translation function: what it can answer. -/

namespace Sys2Proof.Machine

@[simp] theorem redirects_emit (s : State) (o : Output) (i : Nat) (a : Addr) :
    (s.emit o).redirects i a = s.redirects i a := rfl
@[simp] theorem redirects_respond (s : State) (r : Response) (i : Nat) (a : Addr) :
    (s.respond r).redirects i a = s.redirects i a := rfl
@[simp] theorem redirects_raise (s : State) (k : ErrorKind) (i : Nat) (a : Addr) :
    (s.raise k).redirects i a = s.redirects i a := rfl
@[simp] theorem redirects_writeByte (s : State) (p : Addr) (b : Byte) (i : Nat) (a : Addr) :
    (s.writeByte p b).redirects i a = s.redirects i a := rfl
@[simp] theorem redirects_drawChoice (s : State) (i : Nat) (a : Addr) :
    s.drawChoice.redirects i a = s.redirects i a := rfl
@[simp] theorem redirects_clearTable (s : State) (i : Nat) (a : Addr) : s.clearTable.redirects i a = false := by
  simp [State.redirects]

/-- A slot's redirection after a slot is written. -/
theorem redirects_setEntry (s : State) (i j : Nat) (e : Slot) (a : Addr) (hi : i < s.cfg.capacity) :
    (s.setEntry i e).redirects j a = if j = i then e.enabled && inSource s.cfg e a else s.redirects j a := by
  by_cases h : j = i <;> simp [State.redirects, entry_setEntry s i _ e hi, h]

/-- The matching slots are those that redirect (R43). -/
theorem mem_matching (s : State) (a : Addr) (i : Nat) : i ∈ s.matching a ↔ s.redirects i a = true := by
  simp only [State.matching, List.mem_filter, List.mem_range, and_iff_right_iff_imp]
  intro h
  cases he : s.entry i with
  | none => simp [State.redirects, he] at h
  | some e => exact entry_lt he

/-- The slot drawn is one of those to choose from. -/
theorem pickAmong_mem (n : Nat) (a : Addr) (i : Nat) (l : List Nat) (hl : l ≠ []) : pickAmong n a i l ∈ l := by
  have hpos : 0 < l.length := List.length_pos_iff.2 hl
  have hlt : Config.overlapPick n a % l.length < l.length := Nat.mod_lt _ hpos
  simp [pickAmong, List.getD_eq_getElem?_getD, List.getElem?_eq_getElem hlt]

/-- Whatever is drawn, the translation is one that R43 and R44 allow. -/
theorem translation_allowed (s : State) (a : Addr) : s.mayTranslate a (s.translation a) := by
  unfold State.translation
  split
  · rename_i h
    refine .inl ⟨fun i => ?_, rfl⟩
    have := mem_matching s a i
    simpa [h] using this
  · rename_i i h
    exact .inr ⟨i, (mem_matching s a i).1 (by simp [h]), rfl⟩
  · rename_i i j rest h
    refine .inr ⟨_, (mem_matching s a _).1 ?_, rfl⟩
    rw [h]
    exact pickAmong_mem _ _ _ _ (by simp)

/-- What an evaluation can do to the state: count one choice, or nothing (R52). -/
theorem afterTranslation_cases (s : State) (a : Addr) :
    (s.afterTranslation a = s ∧ (s.matching a).length ≤ 1) ∨
    (s.afterTranslation a = s.drawChoice ∧ 2 ≤ (s.matching a).length) := by
  unfold State.afterTranslation
  split <;> simp_all

@[simp] theorem afterTranslation_cfg (s : State) (a : Addr) : (s.afterTranslation a).cfg = s.cfg := by
  rcases afterTranslation_cases s a with ⟨h, _⟩ | ⟨h, _⟩ <;> simp [h]
@[simp] theorem afterTranslation_table (s : State) (a : Addr) : (s.afterTranslation a).table = s.table := by
  rcases afterTranslation_cases s a with ⟨h, _⟩ | ⟨h, _⟩ <;> simp [h]
@[simp] theorem afterTranslation_mem (s : State) (a : Addr) : (s.afterTranslation a).mem = s.mem := by
  rcases afterTranslation_cases s a with ⟨h, _⟩ | ⟨h, _⟩ <;> simp [h]
@[simp] theorem afterTranslation_output (s : State) (a : Addr) : (s.afterTranslation a).output = s.output := by
  rcases afterTranslation_cases s a with ⟨h, _⟩ | ⟨h, _⟩ <;> simp [h]
@[simp] theorem afterTranslation_inputs (s : State) (a : Addr) : (s.afterTranslation a).inputs = s.inputs := by
  rcases afterTranslation_cases s a with ⟨h, _⟩ | ⟨h, _⟩ <;> simp [h]

end Sys2Proof.Machine
end

