-- ==== Sys2Proof/Laws/Bus.lean ====
section
/-! SUPPORT. The bus observer's accesses: what they leave alone, and the form of memory. -/

namespace Sys2Proof.Machine

/-- A read through the remapper changes nothing but the count of choices. -/
theorem readThrough_frame (n : Nat) : ∀ (s : State) (a : Addr),
    (s.readThrough a n).2 = { s with choices := (s.readThrough a n).2.choices } := by
  induction n with
  | zero => intro s a; rfl
  | succ n ih =>
    intro s a
    simp only [State.readThrough]
    rw [ih]
    simp

/-- A write through the remapper changes memory and the count of choices alone. -/
theorem writeThrough_frame (l : List Byte) : ∀ (s : State) (a : Addr),
    s.writeThrough a l =
      { s with mem := (s.writeThrough a l).mem, choices := (s.writeThrough a l).choices } := by
  induction l with
  | nil => intro s a; rfl
  | cons b rest ih =>
    intro s a
    simp only [State.writeThrough]
    rw [ih]
    simp

/-- A write through the remapper keeps the canonical form of memory. -/
theorem writeThrough_wf (l : List Byte) : ∀ (s : State) (a : Addr), s.mem.wf = true →
    (s.writeThrough a l).mem.wf = true := by
  induction l with
  | nil => intro s a h; exact h
  | cons b rest ih =>
    intro s a h
    exact ih _ _ (by simpa using Memory.wf_write s.mem _ b h)

/-- A read returns as many bytes as asked for. -/
theorem readThrough_length (n : Nat) : ∀ (s : State) (a : Addr), (s.readThrough a n).1.length = n := by
  induction n with
  | zero => intro s a; rfl
  | succ n ih => intro s a; simp [State.readThrough, ih]

end Sys2Proof.Machine
end

