-- ==== Sys2Proof/Laws/Decode.lean ====
section
/-! SUPPORT. The ports of an encoded vector, each read back; the op codes, there and back. -/

namespace Sys2Proof

/-- R61 names each value of `op` once. -/
@[simp] theorem Opcode.ofBits_toBits (op : Opcode) : Opcode.ofBits op.toBits = op := by cases op <;> rfl

/-- R61 names every value of `op`. -/
@[simp] theorem Opcode.toBits_ofBits (op : BitVec 3) : (Opcode.ofBits op).toBits = op := by
  revert op
  decide

/-- A value shifted to its place in a vector, bit by bit. -/
theorem getLsbD_placed {n w : Nat} (x : BitVec n) (lo k : Nat) (hk : k < w) :
    (x.setWidth w <<< lo).getLsbD k = (decide (lo ≤ k) && x.getLsbD (k - lo)) := by
  by_cases h : lo ≤ k
  · have : ¬ k < lo := by omega
    simp [h, hk, this]
  · have : k < lo := by omega
    simp [h, this]

/-- The bits of a command vector: those of the ports, each at its place. -/
theorem getLsbD_commandVector (op : Opcode) (i : Index) (f t : Addr) (c : SizeClass) (k : Nat) (hk : k < 166) :
    (commandVector op i f t c).getLsbD k =
      (op.toBits.getLsbD k || (decide (3 ≤ k) && i.getLsbD (k - 3)) || (decide (35 ≤ k) && f.getLsbD (k - 35))
        || (decide (99 ≤ k) && t.getLsbD (k - 99)) || (decide (163 ≤ k) && c.getLsbD (k - 163))) := by
  unfold commandVector
  generalize op.toBits = o
  rw [BitVec.getLsbD_or, BitVec.getLsbD_or, BitVec.getLsbD_or, BitVec.getLsbD_or, getLsbD_placed _ _ _ hk,
    getLsbD_placed _ _ _ hk, getLsbD_placed _ _ _ hk, getLsbD_placed _ _ _ hk, BitVec.getLsbD_setWidth]
  simp [hk]

/-- A slice of a vector is a value if every bit of the slice is. -/
theorem slice_eq {w n : Nat} {v : BitVec w} {lo : Nat} {x : BitVec n}
    (h : ∀ k, k < n → v.getLsbD (lo + k) = x.getLsbD k) : v.extractLsb' lo n = x := by
  apply BitVec.eq_of_getLsbD_eq
  intro k hk
  simp [hk, h k hk]

@[simp] theorem opPort_commandVector (op : Opcode) (i : Index) (f t : Addr) (c : SizeClass) :
    opPort (commandVector op i f t c) = op.toBits := by
  refine slice_eq fun k hk => ?_
  rw [getLsbD_commandVector _ _ _ _ _ _ (by omega), Nat.zero_add]
  have h1 : ¬ 3 ≤ k := by omega
  have h2 : ¬ 35 ≤ k := by omega
  have h3 : ¬ 99 ≤ k := by omega
  have h4 : ¬ 163 ≤ k := by omega
  simp only [h1, h2, h3, h4, decide_false, Bool.false_and, Bool.or_false]

@[simp] theorem indexPort_commandVector (op : Opcode) (i : Index) (f t : Addr) (c : SizeClass) :
    indexPort (commandVector op i f t c) = i := by
  refine slice_eq fun k hk => ?_
  rw [getLsbD_commandVector _ _ _ _ _ _ (by omega), BitVec.getLsbD_of_ge op.toBits _ (by omega)]
  have h1 : 3 ≤ 3 + k := by omega
  have h2 : ¬ 35 ≤ 3 + k := by omega
  have h3 : ¬ 99 ≤ 3 + k := by omega
  have h4 : ¬ 163 ≤ 3 + k := by omega
  simp only [h1, h2, h3, h4, decide_false, decide_true, Bool.false_and, Bool.true_and, Bool.or_false,
    Bool.false_or, Nat.add_sub_cancel_left]

@[simp] theorem fromOffsetPort_commandVector (op : Opcode) (i : Index) (f t : Addr) (c : SizeClass) :
    fromOffsetPort (commandVector op i f t c) = f := by
  refine slice_eq fun k hk => ?_
  rw [getLsbD_commandVector _ _ _ _ _ _ (by omega), BitVec.getLsbD_of_ge op.toBits _ (by omega),
    BitVec.getLsbD_of_ge i _ (by omega)]
  have h2 : 35 ≤ 35 + k := by omega
  have h3 : ¬ 99 ≤ 35 + k := by omega
  have h4 : ¬ 163 ≤ 35 + k := by omega
  simp only [h2, h3, h4, decide_false, decide_true, Bool.false_and, Bool.true_and, Bool.and_false, Bool.or_false,
    Bool.false_or, Nat.add_sub_cancel_left]

@[simp] theorem toOffsetPort_commandVector (op : Opcode) (i : Index) (f t : Addr) (c : SizeClass) :
    toOffsetPort (commandVector op i f t c) = t := by
  refine slice_eq fun k hk => ?_
  rw [getLsbD_commandVector _ _ _ _ _ _ (by omega), BitVec.getLsbD_of_ge op.toBits _ (by omega),
    BitVec.getLsbD_of_ge i _ (by omega), BitVec.getLsbD_of_ge f _ (by omega)]
  have h3 : 99 ≤ 99 + k := by omega
  have h4 : ¬ 163 ≤ 99 + k := by omega
  simp only [h3, h4, decide_false, decide_true, Bool.false_and, Bool.true_and, Bool.and_false, Bool.or_false,
    Bool.false_or, Nat.add_sub_cancel_left]

@[simp] theorem sizeClassPort_commandVector (op : Opcode) (i : Index) (f t : Addr) (c : SizeClass) :
    sizeClassPort (commandVector op i f t c) = c := by
  refine slice_eq fun k hk => ?_
  rw [getLsbD_commandVector _ _ _ _ _ _ (by omega), BitVec.getLsbD_of_ge op.toBits _ (by omega),
    BitVec.getLsbD_of_ge i _ (by omega), BitVec.getLsbD_of_ge f _ (by omega), BitVec.getLsbD_of_ge t _ (by omega)]
  have h4 : 163 ≤ 163 + k := by omega
  simp only [h4, decide_true, Bool.true_and, Bool.and_false, Bool.or_false, Bool.false_or,
    Nat.add_sub_cancel_left]

@[simp] theorem fromOffset_encodeFromVector (f : Addr) (c : SizeClass) :
    (encodeFromVector f c).extractLsb' 3 64 = f := by
  refine slice_eq fun k hk => ?_
  have h : 3 ≤ 3 + k := by omega
  rw [encodeFromVector, BitVec.getLsbD_or, getLsbD_placed _ _ _ (by omega), BitVec.getLsbD_setWidth,
    BitVec.getLsbD_of_ge c _ (by omega)]
  simp only [h, decide_true, Bool.true_and, Bool.and_false, Bool.false_or, Nat.add_sub_cancel_left]

@[simp] theorem sizeClass_encodeFromVector (f : Addr) (c : SizeClass) :
    (encodeFromVector f c).extractLsb' 0 3 = c := by
  refine slice_eq fun k hk => ?_
  have h : ¬ 3 ≤ k := by omega
  rw [Nat.zero_add, encodeFromVector, BitVec.getLsbD_or, getLsbD_placed _ _ _ (by omega), BitVec.getLsbD_setWidth]
  simp only [h, decide_false, Bool.false_and, Bool.or_false, show k < 67 by omega, decide_true, Bool.true_and]

end Sys2Proof
end

