-- ==== Sys2Proof/Laws/PerInstr.lean ====
section
/-! SUPPORT. A family of statements made instruction by instruction: the encoder drives the port group on which
the operation is reached (30_encoding.md R60, R71, R72; a group per codec unit: log 22). -/

namespace Sys2Proof.Laws

/-- The encoder drives the operation's own port group. -/
def EncodePort.Statement (i : Instr) : Prop := (encode i).port = i.port

theorem EncodePort.install : ∀ i f t c, EncodePort.Statement (.install i f t c) := fun _ _ _ _ => rfl
theorem EncodePort.enable : ∀ i, EncodePort.Statement (.enable i) := fun _ => rfl
theorem EncodePort.disable : ∀ i, EncodePort.Statement (.disable i) := fun _ => rfl
theorem EncodePort.flush : EncodePort.Statement .flush := rfl
theorem EncodePort.readFrom : ∀ i, EncodePort.Statement (.readFrom i) := fun _ => rfl
theorem EncodePort.readTo : ∀ i, EncodePort.Statement (.readTo i) := fun _ => rfl
theorem EncodePort.version : EncodePort.Statement .version := rfl
theorem EncodePort.groupMask : ∀ g, EncodePort.Statement (.groupMask g) := fun _ => rfl
theorem EncodePort.encodeFrom : ∀ f c, EncodePort.Statement (.encodeFrom f c) := fun _ _ => rfl
theorem EncodePort.encodeTo : ∀ t, EncodePort.Statement (.encodeTo t) := fun _ => rfl
theorem EncodePort.decodeSizeClass : ∀ p, EncodePort.Statement (.decodeSizeClass p) := fun _ => rfl
theorem EncodePort.decodeFromOffset : ∀ p, EncodePort.Statement (.decodeFromOffset p) := fun _ => rfl
theorem EncodePort.decodeToOffset : ∀ p, EncodePort.Statement (.decodeToOffset p) := fun _ => rfl
theorem EncodePort.translate : ∀ a, EncodePort.Statement (.translate a) := fun _ => rfl

end Sys2Proof.Laws
end

