-- ==== Sys2Proof/Laws/Step.lean ====
section
/-! SUPPORT. Every operation completes, and what a step can do. -/

namespace Sys2Proof.Machine

/-- Every operation completes in every state (41_table_commands.md R90). -/
theorem exec_completes (i : Instr) (s : State) : ∃ t, exec i s = .next t := by
  cases i <;> exact ⟨_, rfl⟩

/-- A step's five cases, one per kind of input and one for none. -/
theorem step_cases {s t : State} (h : step s = .next t) :
    (s.inputs = [] ∧ t = s) ∨
    (∃ r rest, s.inputs = .request r :: rest ∧ exec (decode r) (s.withInputs rest) = .next t) ∨
    (∃ a n rest, s.inputs = .busRead a n :: rest ∧ t = (s.withInputs rest).busRead a n) ∨
    (∃ a l rest, s.inputs = .busWrite a l :: rest ∧ t = (s.withInputs rest).busWrite a l) ∨
    (∃ rest, s.inputs = .reset :: rest ∧ t = (s.withInputs rest).applyReset) := by
  unfold step State.nextInput at h
  cases hi : s.inputs with
  | nil => simp_all
  | cons i rest =>
    cases i <;> simp_all

end Sys2Proof.Machine
end

