-- ==== Sys2Proof/Laws/Validity.lean ====
section
/-! SUPPORT. The validity words, bit by bit. -/

namespace Sys2Proof.Machine

/-- The bits of a packed word. -/
theorem getLsbD_packBits (w : Nat) (p : Nat → Bool) (n k : Nat) :
    (packBits w p n).getLsbD k = (decide (k < n) && decide (k < w) && p k) := by
  induction n with
  | zero => simp [packBits]
  | succ n ih =>
    simp only [packBits, BitVec.getLsbD_or, ih]
    by_cases hk : k = n
    · subst hk
      cases hp : p k <;> simp [BitVec.getLsbD_twoPow]
    · have : (k < n + 1) = (k < n) := by
        simp only [eq_iff_iff]
        omega
      cases hp : p n <;> simp [BitVec.getLsbD_twoPow, this, Ne.symm hk]

/-- Bit `k` of a validity word (R68, R100). -/
theorem getLsbD_validWord (s : State) (g k : Nat) :
    (s.validWord g).getLsbD k = (decide (k < 32) && s.validBit (32 * g + k)) := by
  simp [State.validWord, getLsbD_packBits, Config.groupSize]

@[simp] theorem validBit_emit (s : State) (o : Output) (i : Nat) : (s.emit o).validBit i = s.validBit i := rfl
@[simp] theorem validBit_respond (s : State) (r : Response) (i : Nat) :
    (s.respond r).validBit i = s.validBit i := rfl
@[simp] theorem validBit_raise (s : State) (k : ErrorKind) (i : Nat) : (s.raise k).validBit i = s.validBit i := rfl

@[simp] theorem validBit_clearTable (s : State) (i : Nat) : s.clearTable.validBit i = false := by
  simp [State.validBit]

/-- A validity bit after a slot is written. -/
theorem validBit_setEntry (s : State) (i j : Nat) (e : Slot) (hi : i < s.cfg.capacity) :
    (s.setEntry i e).validBit j = if j = i then e.enabled else s.validBit j := by
  by_cases h : j = i <;> simp [State.validBit, entry_setEntry s i _ e hi, h]

end Sys2Proof.Machine
end

