-- ==== Sys2Proof/Tests/Slice0.lean ====
section
/-! SUPPORT. The model's own tests. Expected results come from spec/95_test_vectors.md (V and P numbers), from the
encoding tables of 30_encoding.md, or by hand from a rule. -/

namespace Sys2Proof.Tests

open Sys2Proof Sys2Proof.Machine

/-! Helpers -/

/-- CFG-B of 95_test_vectors.md: SPAN(3) = 8, SPAN(5) = 64, every other span 16; a version word of its own. -/
def cfgB : Config where
  capacity := 224
  spanLog := #v[4, 4, 4, 3, 4, 6, 4, 4]
  fromBase := 0x80000000
  toBase := 0x90000000
  versionId := 0x89ABCDEF

/-- A state with the given table and nothing else in it. -/
def withTable (t : Table) : State :=
  { cfg := cfgB, table := t, mem := [], output := none, inputs := [], choices := 0 }

/-- The entry of V33 and V34 with its bit. -/
def slot5 (b : Bool) : State := withTable [(5, ⟨0x107, 0x200, b⟩)]

/-- The output and one slot after a step that answers a next state. -/
def seen (i : Nat) : Host.Outcome State Fault Refusal → Option (Option Output × Option Slot)
  | .next t => some (t.output, t.entry i)
  | .fault _ => none
  | .refused _ => none

/-- The output after a step that answers a next state. -/
def said : Host.Outcome State Fault Refusal → Option Output
  | .next t => t.output
  | .fault _ => none
  | .refused _ => none

/-! Well-formedness: an ill-formed term for each check -/

theorem test_wf_refuses_reserved_class : (Instr.decodeSizeClass 0x10F).wellFormed = false := by decide
theorem test_wf_refuses_reserved_class_offset : (Instr.decodeFromOffset 0x108).wellFormed = false := by decide
theorem test_wf_accepts_legal_class : (Instr.decodeSizeClass 0x107).wellFormed = true := by decide
theorem test_fits_refuses_command : Port.command.fits (2 ^ 166) = false := by decide
theorem test_fits_refuses_encodeFrom : Port.encodeFrom.fits (2 ^ 67) = false := by decide
theorem test_fits_refuses_wide_ports :
    ∀ p ∈ [Port.encodeTo, .decodeSizeClass, .decodeFromOffset, .decodeToOffset, .translate],
      p.fits (2 ^ 64) = false ∧ p.fits (2 ^ 64 - 1) = true := by decide
theorem test_config_refuses_no_slots : ({ cfgB with capacity := 0 } : Config).wellFormed = false := by decide
theorem test_table_refuses_index_at_capacity : (withTable [(224, ⟨0, 0, false⟩)]).wf = false := by decide
theorem test_table_refuses_misaligned_entry : (withTable [(2, ⟨0x55, 0x80, false⟩)]).wf = false := by decide
theorem test_table_refuses_reserved_class : (withTable [(2, ⟨0x108, 0x80, false⟩)]).wf = false := by decide
theorem test_table_refuses_repeated_index :
    (withTable [(2, ⟨0, 0, false⟩), (2, ⟨0x10, 0, true⟩)]).wf = false := by decide
theorem test_memory_refuses_falling_addresses : Memory.wf [(2, 0), (1, 0)] = false := by decide
theorem test_memory_refuses_address_past_top : Memory.wf [(2 ^ 64, 0)] = false := by decide

/-! Decoding: words written out from 30_encoding.md R60, R61, R71, R72 (operands of 95_test_vectors.md P1, P3) -/

theorem test_decode_install : decodeNat .command 0x380000000000001000000000000000080000000388
    = .ok (.install 113 0x100 0x200 7) := by rfl
theorem test_decode_enable : decodeNat .command 0x389 = .ok (.enable 113) := by rfl
theorem test_decode_disable : decodeNat .command 0x7FFFFFFFA = .ok (.disable 0xFFFFFFFF) := by rfl
theorem test_decode_flush : decodeNat .command 0b011 = .ok .flush := by rfl
theorem test_decode_readFrom : decodeNat .command 0x38C = .ok (.readFrom 113) := by rfl
theorem test_decode_readTo : decodeNat .command 0x705 = .ok (.readTo 224) := by rfl
theorem test_decode_version : decodeNat .command 0b110 = .ok .version := by rfl
theorem test_decode_groupMask : decodeNat .command 0x1F = .ok (.groupMask 3) := by rfl
theorem test_decode_encodeFrom : decodeNat .encodeFrom 0x807 = .ok (.encodeFrom 0x100 7) := by rfl
theorem test_decode_encodeFrom_top :
    decodeNat .encodeFrom 0x7FFFFFFFFFFFFFF85 = .ok (.encodeFrom 0xFFFFFFFFFFFFFFF0 5) := by rfl
theorem test_decode_encodeTo : decodeNat .encodeTo 0x200 = .ok (.encodeTo 0x200) := by rfl
theorem test_decode_decodeSizeClass : decodeNat .decodeSizeClass 0x107 = .ok (.decodeSizeClass 0x107) := by rfl
theorem test_decode_decodeFromOffset : decodeNat .decodeFromOffset 0x107 = .ok (.decodeFromOffset 0x107) := by rfl
theorem test_decode_decodeToOffset : decodeNat .decodeToOffset 0x200 = .ok (.decodeToOffset 0x200) := by rfl
theorem test_decode_translate : decodeNat .translate 0x80000100 = .ok (.translate 0x80000100) := by rfl
theorem test_decode_rejects_by_name : decodeNat .command (2 ^ 166) = .error .widerThanPort := by rfl

/-- The command rows of spec/opcode_table.json, one byte each, every operand 0. -/
theorem test_table_rows : (List.range 8).map (decodeTableWord 8) =
    [some (.install 0 0 0 0), some (.enable 0), some (.disable 0), some .flush, some (.readFrom 0),
     some (.readTo 0), some .version, some (.groupMask 0)] := by decide
theorem test_table_row_encodeFrom : decodeTableWord 72 0x807 = some (.encodeFrom 0x100 7) := by decide
theorem test_table_row_without_port : decodeTableWord 64 0 = none := by decide

/-- The row's word runs as the first operation after reset. -/
theorem test_first_operation_runs :
    step (State.reset.withFetchWord 8 6) = exec .version State.reset ∧
    step (State.reset.withFetchWord 8 0) = exec (.install 0 0 0 0) State.reset ∧
    step (State.reset.withFetchWord 72 0x807) = exec (.encodeFrom 0x100 7) State.reset := ⟨rfl, rfl, rfl⟩

/-- From reset an `INSTALL` of zeros succeeds, whatever the open spans are (R91, corner case 4). -/
theorem test_install_from_reset : seen 0 (step (State.reset.withFetchWord 8 0)) =
    some (some (.response .ok), some ⟨0, 0, false⟩) := by rfl

theorem test_state_refuses_no_slots : ({ withTable [] with cfg := { cfgB with capacity := 0 } } : State).wf = false := by
  decide

/-! The table commands -/

/-- V20. -/
theorem test_install_stores : seen 113 (exec (.install 113 0x100 0x200 7) (withTable [])) =
    some (some (.response .ok), some ⟨0x107, 0x200, false⟩) := by decide
/-- V30: the failed `INSTALL` leaves the enabled entry. -/
theorem test_install_misaligned_keeps_old : seen 5 (exec (.install 5 0x304 0x400 7) (slot5 true)) =
    some (some (.response (.error .alignmentError)), some ⟨0x107, 0x200, true⟩) := by decide
/-- V29: the new entry is disabled. -/
theorem test_install_over_enabled : seen 5 (exec (.install 5 0x300 0x400 7) (slot5 true)) =
    some (some (.response .ok), some ⟨0x307, 0x400, false⟩) := by decide
/-- V27: 0x90 is a multiple of 16 and not of 64. -/
theorem test_install_class_granularity :
    said (exec (.install 2 0x40 0x90 5) (withTable [])) = some (.response (.error .alignmentError)) := by decide
/-- V26: both conditions hold, the index wins. -/
theorem test_install_out_of_range :
    said (exec (.install 224 0x104 0x200 7) (withTable [])) = some (.response (.error .indexOutOfRange)) := by decide
/-- V33. -/
theorem test_enable : seen 5 (exec (.enable 5) (slot5 false)) =
    some (some (.response .ok), some ⟨0x107, 0x200, true⟩) := by decide
/-- V37. -/
theorem test_enable_past_capacity :
    said (exec (.enable 224) (slot5 true)) = some (.response (.error .notInstalled)) := by decide
/-- V35. -/
theorem test_disable : seen 5 (exec (.disable 5) (slot5 true)) =
    some (some (.response .ok), some ⟨0x107, 0x200, false⟩) := by decide
/-- V32. -/
theorem test_disable_absent :
    said (exec (.disable 5) (withTable [])) = some (.response (.error .notInstalled)) := by decide
/-- V38. -/
theorem test_flush : seen 5 (exec .flush (slot5 true)) = some (some (.response .ok), none) := by decide
/-- V41. -/
theorem test_readFrom : said (exec (.readFrom 5) (slot5 true)) = some (.response (.value 0x107)) := by decide
/-- V23: installed with both values 0 is not absent. -/
theorem test_readFrom_zero_entry :
    said (exec (.readFrom 0) (withTable [(0, ⟨0, 0, false⟩)])) = some (.response (.value 0)) := by decide
/-- V41. -/
theorem test_readTo : said (exec (.readTo 5) (slot5 false)) = some (.response (.value 0x200)) := by decide
/-- V32. -/
theorem test_readTo_absent : said (exec (.readTo 6) (slot5 true)) = some (.response (.error .notInstalled)) := by decide
/-- R97 by hand: zero extended. -/
theorem test_version : said (exec .version (slot5 true)) = some (.response (.value 0x0000000089ABCDEF)) := by decide

/-! The validity words -/

/-- V44. -/
theorem test_groupMask_ends : said (exec (.groupMask 0)
    (withTable [(0, ⟨7, 0, true⟩), (31, ⟨7, 0, true⟩), (32, ⟨7, 0, true⟩), (223, ⟨7, 0, true⟩)])) =
    some (.response (.value 0x80000001)) := by decide
/-- V43, V45: bit 17 of group 3 is entry 113; a disabled entry gives 0. -/
theorem test_groupMask_bit : said (exec (.groupMask 3) (withTable [(112, ⟨7, 0, false⟩), (113, ⟨7, 0, true⟩)])) =
    some (.response (.value 0x00020000)) := by decide
/-- V46: no wrap of 32 * group_index. -/
theorem test_groupMask_no_wrap :
    said (exec (.groupMask 0x08000000) (withTable [(0, ⟨7, 0, true⟩)])) = some (.response (.value 0)) := by decide
/-- V47: a capacity that is no multiple of 32. -/
theorem test_groupMask_partial_group : said (exec (.groupMask 1)
    { withTable ((List.range 40).map fun i => (i, ⟨7, 0, true⟩)) with cfg := { cfgB with capacity := 40 } }) =
    some (.response (.value 0x000000FF)) := by decide

/-! The codec -/

/-- V5. -/
theorem test_encodeFrom_top : said (exec (.encodeFrom 0xFFFFFFFFFFFFFFF0 7) (withTable [])) =
    some (.packedFrom (.ok 0xFFFFFFFFFFFFFFF7)) := by decide
/-- V9. -/
theorem test_encodeFrom_misaligned :
    said (exec (.encodeFrom 0x8 0) (withTable [])) = some (.packedFrom .alignmentError) := by decide
/-- V10. -/
theorem test_encodeTo : said (exec (.encodeTo 0x200) (withTable [])) = some (.packedTo (.ok 0x200)) := by decide
/-- V14. -/
theorem test_encodeTo_misaligned :
    said (exec (.encodeTo 0x1F) (withTable [])) = some (.packedTo .alignmentError) := by decide
/-- V15. -/
theorem test_decodeSizeClass : said (exec (.decodeSizeClass 0xFFFFFFFFFFFFFFF7) (withTable [])) =
    some (.sizeClass 7) := by decide
/-- V18: a reserved value. -/
theorem test_decodeSizeClass_reserved :
    said (exec (.decodeSizeClass 0x10F) (withTable [])) = some (.sizeClass 0xF) := by decide
/-- V16. -/
theorem test_decodeFromOffset :
    said (exec (.decodeFromOffset 0x107) (withTable [])) = some (.fromOffset 0x100) := by decide
/-- V18. -/
theorem test_decodeFromOffset_reserved :
    said (exec (.decodeFromOffset 0x10F) (withTable [])) = some (.fromOffset 0x100) := by decide
/-- V17. -/
theorem test_decodeToOffset :
    said (exec (.decodeToOffset 0x200) (withTable [])) = some (.toOffset 0x200) := by decide

/-! Translation and the bus -/

/-- V48, V49, V50, V51, V52 on the entry of V33. -/
theorem test_translate_edges : [0x80000100, 0x8000010F, 0x80000110, 0x800000FF, 0x90000200].map
      (slot5 true).translation =
    [⟨true, 0x90000200⟩, ⟨true, 0x9000020F⟩, ⟨false, 0x80000110⟩, ⟨false, 0x800000FF⟩, ⟨false, 0x90000200⟩] := by
  decide
/-- V54. -/
theorem test_translate_disabled :
    said (exec (.translate 0x80000100) (slot5 false)) = some (.translated ⟨false, 0x80000100⟩) := by decide
/-- V56: a 64-byte span, and an 8-byte span inside a 16-byte granule. -/
theorem test_translate_spans : [0x8000007F, 0x80000080, 0x80000017, 0x80000018].map
      (withTable [(1, ⟨0x45, 0x80, true⟩), (2, ⟨0x13, 0x30, true⟩)]).translation =
    [⟨true, 0x900000BF⟩, ⟨false, 0x80000080⟩, ⟨true, 0x90000037⟩, ⟨false, 0x80000018⟩] := by decide
/-- V55: a source range that wraps past 2^64. -/
theorem test_translate_wraps : [0xFFFFFFFFFFFFFFFF, 0x0, 0x7, 0x8].map
      ({ withTable [(0, ⟨0x7, 0x0, true⟩)] with
         cfg := { cfgB with fromBase := 0xFFFFFFFFFFFFFFF8, toBase := 0x1000 } } : State).translation =
    [⟨true, 0x1007⟩, ⟨true, 0x1008⟩, ⟨true, 0x100F⟩, ⟨false, 0x8⟩] := by decide
/-- V57: either entry, as the free choice falls. -/
theorem test_translate_overlap (t : Translation)
    (h : t = (withTable [(1, ⟨0x107, 0x200, true⟩), (2, ⟨0x107, 0x300, true⟩)]).translation 0x80000100) :
    t = ⟨true, 0x90000200⟩ ∨ t = ⟨true, 0x90000300⟩ := by
  rcases translation_allowed (withTable [(1, ⟨0x107, 0x200, true⟩), (2, ⟨0x107, 0x300, true⟩)]) 0x80000100
    with ⟨h0, _⟩ | ⟨i, hi, ht⟩
  · exact absurd (h0 1) (by decide)
  · have hm := (mem_matching _ _ _).2 hi
    have : (withTable [(1, ⟨0x107, 0x200, true⟩), (2, ⟨0x107, 0x300, true⟩)]).matching 0x80000100 = [1, 2] := by
      decide
    rw [this] at hm
    rw [h, ht]
    simp only [List.mem_cons, List.not_mem_nil, or_false] at hm
    rcases hm with rfl | rfl
    · exact .inl (by decide)
    · exact .inr (by decide)

/-- The memory of P4 around the start of the source range and in the destination range. -/
def memP4 : Memory := [(0x800000FC, 0x14), (0x800000FD, 0x15), (0x800000FE, 0x16), (0x800000FF, 0x17),
  (0x90000200, 0x88), (0x90000201, 0x89), (0x90000202, 0x8A), (0x90000203, 0x8B)]

/-- P4 step 3: a read that straddles the start of the source range. -/
theorem test_busRead_straddles :
    said (step { slot5 true with mem := memP4, inputs := [.busRead 0x800000FC 8] }) =
    some (.busData [0x14, 0x15, 0x16, 0x17, 0x88, 0x89, 0x8A, 0x8B]) := by decide
/-- P4 step 4: a redirected write. -/
theorem test_busWrite_redirected :
    ((slot5 true).busWrite 0x80000104 [0xEF, 0xBE, 0xAD, 0xDE]).mem =
    [(0x90000204, 0xEF), (0x90000205, 0xBE), (0x90000206, 0xAD), (0x90000207, 0xDE)] := by decide
/-- P5: a reset empties the table. -/
theorem test_reset_input : seen 5 (step { slot5 true with inputs := [.reset] }) = some (none, none) := by decide

/-! Witnesses: for each statement with hypotheses, concrete values that meet them all -/

/-- StepRunsDecodedOperation. -/
theorem witness_step_runs :
    ({ slot5 true with inputs := [.request (.command 0x2C), .reset] } : State).inputs
      = .request (.command 0x2C) :: [.reset] ∧ decode (.command 0x2C) = .readFrom 5 := by decide
/-- BlockHasNoStepOfItsOwn. -/
theorem witness_no_input : (slot5 true).inputs = [] := rfl
/-- UnusedPortsAreIgnored: FLUSH with every other port at its greatest value; ENABLE 1 with the offset ports set. -/
theorem witness_unused_ports :
    (opPort 0x3FFFFFFFFFFFFFFFFFFFFFFFFFFFFFFFFFFFFFFFFB = 3 ∧ opPort 3 = 3) ∧
    opPort 0x3FFFFFFFFFFFFFFFFFFFFFFFFFFFFFFFF800000009 = opPort 9 ∧
    indexPort 0x3FFFFFFFFFFFFFFFFFFFFFFFFFFFFFFFF800000009 = indexPort 9 ∧ opPort 9 ≠ 0 := by
  decide
/-- RunIsFoldOfOperations. -/
theorem witness_run : ({ slot5 true with inputs := [.request (.command 0x29), .request (.command 3), .reset] } : State).inputs
    = [Request.command 0x29, .command 3].map Input.request ++ [.reset] := by decide
/-- ResetLeavesEmptyTable, SlotFollowsLifeCycle: a reset pending on an enabled entry. -/
theorem witness_reset_pending : ({ slot5 true with inputs := [.reset] } : State).inputs = .reset :: [] ∧
    (slot5 true).entry 5 ≠ none := by decide
/-- StepKeepsTableAndMemoryForm: a state in form takes a step, to a state with an entry and a byte. -/
theorem witness_step_keeps_form :
    ({ slot5 true with mem := [(0, 1)], inputs := [.busWrite 0x80000100 [7]] } : State).wf = true ∧
    ∃ t, step { slot5 true with mem := [(0, 1)], inputs := [.busWrite 0x80000100 [7]] } = .next t := by
  exact ⟨by decide, _, rfl⟩
/-- StepKeepsConfiguration. -/
theorem witness_step_keeps_cfg : ∃ t, step { slot5 true with inputs := [.request (.command 3)] } = .next t := ⟨_, rfl⟩
/-- InstallStoresDisabledEntry, at the last index and the greatest aligned offsets of a 64-byte class. -/
theorem witness_install : (223#32).toNat < (withTable []).cfg.capacity ∧
    (0xFFFFFFFFFFFFFFC0#64).toNat % gran (withTable []).cfg 5 = 0 ∧
    (0x0#64).toNat % gran (withTable []).cfg 5 = 0 := by decide
/-- IndexOutOfRangeExactly, at the first index out of range. -/
theorem witness_index_out_of_range : (withTable []).cfg.capacity ≤ (224#32).toNat ∧
    said (exec (.install 224 0 0 7) (withTable [])) = some (.response (.error .indexOutOfRange)) := by decide
/-- AlignmentErrorExactly: each error arises, and each packer also answers without one. -/
theorem witness_alignment :
    said (exec (.install 223 0x20 0x40 5) (withTable [])) = some (.response (.error .alignmentError)) ∧
    said (exec (.encodeFrom 1 0) (withTable [])) = some (.packedFrom .alignmentError) ∧
    said (exec (.encodeTo 15) (withTable [])) = some (.packedTo .alignmentError) ∧
    said (exec (.encodeTo 16) (withTable [])) = some (.packedTo (.ok 16)) := by decide
/-- EnableDisableWriteOneBit, ReadsReturnStoredValues: an entry at the last index. -/
theorem witness_entry : (withTable [(223, ⟨0x107, 0x200, true⟩)]).entry (223#32).toNat = some ⟨0x107, 0x200, true⟩ := by
  decide
/-- NotInstalledExactly: an absent slot below the capacity, and the first index above it. -/
theorem witness_absent : (slot5 true).entry (223#32).toNat = none ∧
    (slot5 true).cfg.capacity ≤ (224#32).toNat ∧ Instr.readTo 223 ∈
      [Instr.enable 223, .disable 223, .readFrom 223, .readTo 223] ∧
    said (exec (.readTo 223) (slot5 true)) = some (.response (.error .notInstalled)) := by decide
/-- VersionReturnsConstant, FrameOfEveryOperation, SlotFollowsLifeCycle: operations that answer a next state, one
that touches slot 5 and succeeds, one that does not touch it. -/
theorem witness_next : (∃ t, exec (.disable 5) (slot5 true) = .next t ∧ t.output = some (.response .ok)) ∧
    touches (.disable 5) 5 = true ∧ touches (.disable 5) 6 = false ∧ 223 < (slot5 true).cfg.capacity := by
  exact ⟨⟨_, rfl, rfl⟩, by decide, by decide, by decide⟩
/-- FlushedEntryMustBeReinstalled: a run of a failing ENABLE and an INSTALL elsewhere. -/
theorem witness_flushed : ∃ t u, exec .flush (slot5 true) = .next t ∧
    NotReinstalled 5 [.enable 5, .install 6 0x100 0x200 7] t ∧
    execAll [.enable 5, .install 6 0x100 0x200 7] t = .next u := by
  refine ⟨_, _, rfl, ?_, rfl⟩
  intro t ht
  refine ⟨by simp, ?_⟩
  intro u hu
  exact ⟨by simp, trivial⟩
/-- InstalledValuesReadBack: an ENABLE and an INSTALL at the same index that fails. -/
theorem witness_read_back : ∃ t u,
    (5#32).toNat < (withTable []).cfg.capacity ∧ (0x40#64).toNat % gran (withTable []).cfg 5 = 0 ∧
    (0x80#64).toNat % gran (withTable []).cfg 5 = 0 ∧
    exec (.install 5 0x40 0x80 5) (withTable []) = .next t ∧
    (∀ i ∈ [Instr.enable 5, .install 5 0x50 0x80 5], i ≠ .flush) ∧
    NotReinstalled 5 [.enable 5, .install 5 0x50 0x80 5] t ∧
    execAll [.enable 5, .install 5 0x50 0x80 5] t = .next u := by
  refine ⟨_, _, by decide, by decide, by decide, rfl, by decide, ?_, rfl⟩
  intro t ht
  refine ⟨by simp, ?_⟩
  intro u hu
  refine ⟨?_, trivial⟩
  rintro f o c hc
  injection ht with ht
  injection hu with hu
  subst hu ht
  decide
/-- ErrorsArePreciseAndNotSticky. -/
theorem witness_error : ∃ t, exec (.enable 6) (slot5 true) = .next t ∧
    t.output = some (.response (.error .notInstalled)) := ⟨_, rfl, rfl⟩
/-- ReadsHaveNoSideEffect: each of the operations named, TRANSLATE where one entry catches the address. -/
theorem witness_reads : (∃ t, exec (.readTo 5) (slot5 true) = .next t) ∧ (∃ t, exec .version (slot5 true) = .next t) ∧
    ∃ t, ((slot5 true).matching 0x80000100).length ≤ 1 ∧ exec (.translate 0x80000100) (slot5 true) = .next t := by
  exact ⟨⟨_, rfl⟩, ⟨_, rfl⟩, _, by decide, rfl⟩
/-- The same table and constants as `slot5 true`, and all else different. -/
def otherwiseSlot5 : State where
  cfg := { cfgB with fromBase := 1, toBase := 2 }
  table := (slot5 true).table
  mem := [(0, 1)]
  output := some .busDone
  inputs := [.reset]
  choices := 3

/-- CommandsReadTableAndConstantsOnly: states that differ in the bases, the memory, the output and the counter. -/
theorem witness_commands_read_table : (Instr.readFrom 5).port = .command ∧
    ∃ s s' : State, s ≠ s' ∧ s.table = s'.table ∧ s.cfg.capacity = s'.cfg.capacity ∧
      s.cfg.spanLog = s'.cfg.spanLog ∧ s.cfg.versionId = s'.cfg.versionId ∧
      (∃ t, exec (.readFrom 5) s = .next t) ∧ ∃ t', exec (.readFrom 5) s' = .next t' := by
  refine ⟨rfl, slot5 true, otherwiseSlot5, by decide, rfl, rfl, rfl, rfl, ⟨_, rfl⟩, _, rfl⟩
/-- GroupMaskReportsEnabledEntries: the last bit of a word, both ways; and an empty table. -/
theorem witness_group_mask : (withTable [(31, ⟨7, 0, true⟩)]).entry (32 * (0#32).toNat + 31) = some ⟨7, 0, true⟩ ∧
    (withTable [(31, ⟨7, 0, true⟩)]).entry (32 * (1#32).toNat + 31) = none ∧ (withTable []).table = [] := by decide
/-- IndicesWithNoSlotReadZero, at the first group with no slot. -/
theorem witness_no_slot : (withTable []).cfg.capacity ≤ 32 * (7#32).toNat + 0 ∧
    (withTable []).cfg.ngroups ≤ (7#32).toNat := by decide
/-- ValidVectorConcatenatesWords, at the last bit of the last group. -/
theorem witness_valid_vector : 6 < (slot5 true).cfg.ngroups ∧ 31 < 32 ∧
    (withTable [(223, ⟨7, 0, true⟩)]).entry (32 * 6 + 31) = some ⟨7, 0, true⟩ := by decide
/-- MutationsMoveBitAndRedirection: each of the three commands succeeds somewhere. -/
theorem witness_mutations :
    (∃ t, exec (.install 5 0 0 7) (slot5 true) = .next t ∧ t.output = some (.response .ok)) ∧
    (∃ t, exec (.enable 5) (slot5 false) = .next t ∧ t.output = some (.response .ok)) ∧
    (∃ t, exec (.disable 5) (slot5 true) = .next t ∧ t.output = some (.response .ok)) ∧
    ∃ t, exec .flush (slot5 true) = .next t := by
  exact ⟨⟨_, rfl, rfl⟩, ⟨_, rfl, rfl⟩, ⟨_, rfl, rfl⟩, _, rfl⟩
/-- SetBitsCountEnabledEntries: two entries, one enabled. -/
theorem witness_set_bits : (withTable [(0, ⟨7, 0, true⟩), (223, ⟨7, 0, false⟩)]).wf = true := by decide
/-- EncodersCheckReservedBits, PackingRoundTrips: offsets that pass and offsets that do not. -/
theorem witness_encoders : (0xFFFFFFFFFFFFFFF0#64).extractLsb' 0 4 = 0 ∧ (0x8#64).extractLsb' 0 4 ≠ 0 ∧
    (0x10#64).toNat % 16 = 0 ∧ (0xF#64).toNat % 16 ≠ 0 ∧ (0x107#64).getLsbD 3 = false ∧
    packFrom 0x100 7 = .ok 0x107 := by decide
/-- ClassCheckImpliesPackerChecks: a 64-byte class, and a class of span 16. -/
theorem witness_class_check : (0x40#64).toNat % gran cfgB 5 = 0 ∧ span cfgB 7 = 16 := by decide
/-- CodecIsPure: different states. -/
theorem witness_codec : (Instr.encodeFrom 0x108 7).port ∈
      [Port.encodeFrom, .encodeTo, .decodeSizeClass, .decodeFromOffset, .decodeToOffset] ∧
    (∃ t, exec (.encodeFrom 0x108 7) (slot5 true) = .next t) ∧ ∃ t, exec (.encodeFrom 0x108 7) State.reset = .next t := by
  exact ⟨by decide, ⟨_, rfl⟩, _, rfl⟩
/-- TranslationFollowsMatchingEntry: the last byte of the one entry's range. -/
theorem witness_translation : (slot5 true).entry 5 = some ⟨0x107, 0x200, true⟩ ∧
    (0x8000010F - (slot5 true).cfg.fromBase - (0x107 &&& 0xFFFFFFFFFFFFFFF0#64)).toNat
      < spanOfField (slot5 true).cfg (scField 0x107) ∧
    (∀ j, j ≠ 5 → (slot5 true).redirects j 0x8000010F = false) ∧
    ((slot5 true).matching 0x8000010F).length ≤ 1 := by
  refine ⟨by decide, by decide, fun j hj => ?_, by decide⟩
  have h : (slot5 true).entry j = none := by
    simp [State.entry, slot5, withTable, Keyed.find, hj]
  simp [State.redirects, h]
/-- DisjointRangesNeedNoChoice: one enabled entry in a table of one slot. -/
theorem witness_disjoint :
    ({ withTable [(0, ⟨0x107, 0x200, true⟩)] with cfg := { cfgB with capacity := 1 } } : State).disjointSources ∧
    ({ withTable [(0, ⟨0x107, 0x200, true⟩)] with cfg := { cfgB with capacity := 1 } } : State).redirects
      0 0x80000100 = true := by
  refine ⟨fun a => ?_, by decide⟩
  exact List.length_filter_le _ (List.range 1)
/-- InstallThenEnableRedirects: the last byte of a 64-byte span, another entry enabled elsewhere. -/
theorem witness_scenario : (1#32).toNat < (slot5 true).cfg.capacity ∧
    (0x40#64).toNat % gran (slot5 true).cfg 5 = 0 ∧ (0x80#64).toNat % gran (slot5 true).cfg 5 = 0 ∧
    (63#64).toNat < span (slot5 true).cfg 5 ∧
    ∀ j, j ≠ (1#32).toNat → (slot5 true).redirects j ((slot5 true).cfg.fromBase + 0x40 + 63) = false := by
  refine ⟨by decide, by decide, by decide, by decide, fun j _ => ?_⟩
  by_cases h : j = 5
  · subst h
    decide
  · have h' : (slot5 true).entry j = none := by
      simp [State.entry, slot5, withTable, Keyed.find, h]
    simp [State.redirects, h']
/-- BusReadTranslatesEachByte and BusWriteTranslatesEachByte: accesses of two bytes across the end of the range; the
two bytes go to different addresses, and a third address is none of theirs. -/
theorem witness_bus :
    ({ slot5 true with inputs := [.busRead 0x8000010F 2] } : State).inputs = .busRead 0x8000010F 2 :: [] ∧
    ({ slot5 true with inputs := [.busWrite 0x8000010F [1, 2]] } : State).inputs = .busWrite 0x8000010F [1, 2] :: [] ∧
    ((slot5 true).byteTarget 0x8000010F 0).addr = 0x9000020F ∧
    ((slot5 true).byteTarget 0x8000010F 1).addr = 0x80000110 := by decide

end Sys2Proof.Tests
end

section
/-! PROOFS of the statements of 00_scope.md: what a step does, one equation per kind of next input. -/

namespace Sys2Proof.Machine

section NextInput
variable {s : State}

/-! The list of pending inputs (log 14) -/

theorem nextInput_of_nil (h : s.inputs = []) : s.nextInput = none := by
  rw [State.nextInput, h]

theorem nextInput_of_cons {i : Input} {rest : List Input} (h : s.inputs = i :: rest) :
    s.nextInput = some (i, s.withInputs rest) := by
  rw [State.nextInput, h]

/-! The step, by the next input -/

/-- 00_scope.md R12: the block has no step of its own. -/
theorem step_of_nil (h : s.inputs = []) : step s = .next s := by
  rw [step, nextInput_of_nil h]

/-- 30_encoding.md R74: a presentation runs the operation it decodes to. -/
theorem step_of_request {r : Request} {rest : List Input} (h : s.inputs = .request r :: rest) :
    step s = exec (decode r) (s.withInputs rest) := by
  rw [step, nextInput_of_cons h]

/-- 20_memory.md R47: a read of the bus observer. -/
theorem step_of_busRead {a : Addr} {n : Nat} {rest : List Input} (h : s.inputs = .busRead a n :: rest) :
    step s = .next ((s.withInputs rest).busRead a n) := by
  rw [step, nextInput_of_cons h]

/-- 20_memory.md R47: a write of the bus observer. -/
theorem step_of_busWrite {a : Addr} {bytes : List Byte} {rest : List Input}
    (h : s.inputs = .busWrite a bytes :: rest) :
    step s = .next ((s.withInputs rest).busWrite a bytes) := by
  rw [step, nextInput_of_cons h]

/-- 70_reset_and_hazards.md R130: a reset while running. -/
theorem step_of_reset {rest : List Input} (h : s.inputs = .reset :: rest) :
    step s = .next (s.withInputs rest).applyReset := by
  rw [step, nextInput_of_cons h]

end NextInput

/-- Settles O1: the step's equation for a presentation, at the operation it decodes to. -/
theorem stepRunsDecodedOperation : Obligations.StepRunsDecodedOperation := by
  intro s r i rest hinputs hdecode
  calc step s
      _ = exec (decode r) (s.withInputs rest) := step_of_request hinputs
      _ = exec i { s with inputs := rest } := by rw [hdecode, State.withInputs]

/-- Settles O6: the step's equation for an empty list of inputs. -/
theorem blockHasNoStepOfItsOwn : Obligations.BlockHasNoStepOfItsOwn :=
  fun _ hinputs => step_of_nil hinputs

end Sys2Proof.Machine
end

section
/-! PROOFS of the statements of 10_state.md: the state with no entry, what each operation leaves alone, the slots
after an operation, and the invariant of reachable states. -/

namespace Sys2Proof.Machine

/-! A state in which no entry is present (R32) -/

theorem entry_of_empty {s : State} (h : s.table = []) (i : Nat) : s.entry i = none := by
  simp [State.entry, h, Keyed.find]

section NoEntry
variable {s : State}

theorem matching_of_no_entry (h : ∀ i, s.entry i = none) (a : Addr) : s.matching a = [] := by
  refine List.eq_nil_iff_forall_not_mem.2 fun i hi => ?_
  have hredirects := (mem_matching s a i).1 hi
  simp [State.redirects, h i] at hredirects

theorem translation_of_no_entry (h : ∀ i, s.entry i = none) (a : Addr) :
    s.translation a = { hit := false, addr := a } := by
  rw [State.translation, matching_of_no_entry h a]

theorem validWord_of_no_entry (h : ∀ i, s.entry i = none) (g : Nat) : s.validWord g = 0 := by
  refine BitVec.eq_of_getLsbD_eq fun k _ => ?_
  simp [getLsbD_validWord, State.validBit, h]

end NoEntry

section Absent
variable {s : State} {idx : Index}

theorem setEnabled_of_absent (h : s.entry idx.toNat = none) (b : Bool) :
    s.setEnabled idx b = s.raise .notInstalled := by
  rw [State.setEnabled, h]

theorem readField_of_absent (h : s.entry idx.toNat = none) (field : Slot → Addr) :
    s.readField idx field = s.raise .notInstalled := by
  rw [State.readField, h]

/-- 60_exceptions.md R114: the four commands that need an entry, where none is present. -/
theorem exec_of_absent (h : s.entry idx.toNat = none) {i : Instr}
    (hi : i ∈ [Instr.enable idx, .disable idx, .readFrom idx, .readTo idx]) :
    exec i s = .next (s.raise .notInstalled) := by
  simp only [List.mem_cons, List.not_mem_nil, or_false] at hi
  obtain rfl | rfl | rfl | rfl := hi
  · exact congrArg _ (setEnabled_of_absent h true)
  · exact congrArg _ (setEnabled_of_absent h false)
  · exact congrArg _ (readField_of_absent h Slot.pfrom)
  · exact congrArg _ (readField_of_absent h Slot.pto)

end Absent

/-- Settles O8: the reset state lists no entry, and a reset input has its own step equation. -/
theorem resetLeavesEmptyTable : Obligations.ResetLeavesEmptyTable := by
  have habsent : ∀ i, State.reset.entry i = none := entry_of_empty rfl
  refine ⟨habsent, validWord_of_no_entry habsent, translation_of_no_entry habsent, ?_, ?_⟩
  · exact fun idx i hi => exec_of_absent (habsent idx.toNat) hi
  · exact fun s rest hinputs => step_of_reset hinputs

/-! What an operation leaves alone (41_table_commands.md R90, R99) -/

theorem readField_frame (s : State) (idx : Index) (field : Slot → Addr) :
    s.readField idx field = { s with output := (s.readField idx field).output } := by
  obtain ⟨_, h⟩ | ⟨_, _, h⟩ := readField_cases s idx field <;> rw [h] <;> rfl

section Frame
variable {i : Instr} {s t : State}

/-- An operation that touches no slot writes its answer and the count of choices alone. -/
theorem exec_frame_of_untouched (hi : ∀ j, touches i j = false) (h : exec i s = .next t) :
    t = { s with output := t.output, choices := t.choices } := by
  cases i with
  | install idx => exact absurd (hi idx.toNat) (by simp [touches])
  | enable idx => exact absurd (hi idx.toNat) (by simp [touches])
  | disable idx => exact absurd (hi idx.toNat) (by simp [touches])
  | flush => exact absurd (hi 0) (by simp [touches])
  | readFrom idx =>
    cases h
    rw [readField_frame]
  | readTo idx =>
    cases h
    rw [readField_frame]
  | translate a =>
    cases h
    obtain ⟨h, _⟩ | ⟨h, _⟩ := afterTranslation_cases s a <;> rw [h] <;> rfl
  | _ =>
    cases h
    rfl

@[simp] theorem install_cfg (s : State) (idx : Index) (f o : Addr) (c : SizeClass) :
    (s.install idx f o c).cfg = s.cfg := by
  obtain ⟨_, h⟩ | ⟨_, _, h⟩ | ⟨_, _, _, h⟩ := install_cases s idx f o c <;> simp [h]

@[simp] theorem setEnabled_cfg (s : State) (idx : Index) (b : Bool) : (s.setEnabled idx b).cfg = s.cfg := by
  obtain ⟨_, h⟩ | ⟨_, _, h⟩ := setEnabled_cases s idx b <;> simp [h]

/-- 10_state.md R33: no operation changes the configuration. -/
theorem exec_cfg (h : exec i s = .next t) : t.cfg = s.cfg := by
  cases i with
  | install idx f o c =>
    cases h
    exact install_cfg s idx f o c
  | enable idx =>
    cases h
    exact setEnabled_cfg s idx true
  | disable idx =>
    cases h
    exact setEnabled_cfg s idx false
  | flush =>
    cases h
    rfl
  | _ => rw [exec_frame_of_untouched (fun _ => rfl) h]

end Frame

section BusFrame
variable (s : State) (a : Addr) (n : Nat) (bytes : List Byte)

@[simp] theorem busRead_cfg : (s.busRead a n).cfg = s.cfg := by
  rw [State.busRead, emit_cfg, readThrough_frame]
@[simp] theorem busRead_table : (s.busRead a n).table = s.table := by
  rw [State.busRead, emit_table, readThrough_frame]
@[simp] theorem busRead_mem : (s.busRead a n).mem = s.mem := by
  rw [State.busRead, emit_mem, readThrough_frame]

@[simp] theorem busWrite_cfg : (s.busWrite a bytes).cfg = s.cfg := by
  rw [State.busWrite, emit_cfg, writeThrough_frame]
@[simp] theorem busWrite_table : (s.busWrite a bytes).table = s.table := by
  rw [State.busWrite, emit_table, writeThrough_frame]

end BusFrame

/-- Settles O11: by the kind of the next input. -/
theorem stepKeepsConfiguration : Obligations.StepKeepsConfiguration := by
  intro s t h
  obtain ⟨_, rfl⟩ | ⟨r, rest, _, hexec⟩ | ⟨a, n, rest, _, rfl⟩ | ⟨a, bytes, rest, _, rfl⟩ | ⟨rest, _, rfl⟩ :=
    step_cases h
  · rfl
  · exact (exec_cfg hexec).trans (withInputs_cfg s rest)
  · exact busRead_cfg _ a n
  · exact busWrite_cfg _ a bytes
  · rfl

/-! A slot after an operation (R27) -/

/-- The `INSTALL` column of R27. -/
theorem entry_install {s : State} {j : Nat} (hj : j < s.cfg.capacity) (idx : Index) (f o : Addr) (c : SizeClass) :
    (s.install idx f o c).entry j =
      if idx.toNat = j ∧ aligned s.cfg c f = true ∧ aligned s.cfg c o = true then some (newEntry f o c)
      else s.entry j := by
  obtain ⟨hidx, h⟩ | ⟨_, hmis, h⟩ | ⟨hidx, hf, ho, h⟩ := install_cases s idx f o c
  · have hne : idx.toNat ≠ j := by omega
    simp [h, hne]
  · obtain hf | ho := hmis
    · simp [h, hf]
    · simp [h, ho]
  · simp [h, hf, ho, entry_setEntry _ _ _ _ hidx, newEntry, eq_comm]

/-- The `ENABLE` and `DISABLE` columns of R27. -/
theorem entry_setEnabled (s : State) (idx : Index) (b : Bool) (j : Nat) :
    (s.setEnabled idx b).entry j =
      if idx.toNat = j then (s.entry j).map fun e => { e with enabled := b } else s.entry j := by
  by_cases hj : idx.toNat = j
  · subst hj
    obtain ⟨habsent, h⟩ | ⟨e, he, h⟩ := setEnabled_cases s idx b
    · simp [h, habsent]
    · simp [h, he, entry_setEntry _ _ _ _ (entry_lt he)]
  · obtain ⟨_, h⟩ | ⟨e, he, h⟩ := setEnabled_cases s idx b
    · simp [h, hj]
    · simp [h, hj, entry_setEntry _ _ _ _ (entry_lt he), Ne.symm hj]

/-- The transition table of R27 but for its reset column: every operation, column by column. -/
theorem entry_exec {i : Instr} {s t : State} {j : Nat} (hj : j < s.cfg.capacity) (h : exec i s = .next t) :
    t.entry j = lifeCycle s.cfg j i (s.entry j) := by
  cases i with
  | install idx f o c =>
    cases h
    exact entry_install hj idx f o c
  | enable idx =>
    cases h
    exact entry_setEnabled s idx true j
  | disable idx =>
    cases h
    exact entry_setEnabled s idx false j
  | flush =>
    cases h
    exact entry_clearTable s j
  | _ =>
    rw [exec_frame_of_untouched (fun _ => rfl) h]
    rfl

/-- Settles O23: the transition table under operations, and its reset column. -/
theorem slotFollowsLifeCycle : Obligations.SlotFollowsLifeCycle := by
  refine ⟨fun i s t j hj h => entry_exec hj h, fun s t rest j hinputs h => ?_⟩
  obtain rfl : (s.withInputs rest).applyReset = t := Host.Outcome.next.inj ((step_of_reset hinputs).symm.trans h)
  exact entry_applyReset _ j

/-! Packed from values: the fields of what `ENCODE_FROM` makes (40_codec.md R82, R83) -/

section Pack
variable {f : Addr}

theorem getLsbD_of_low_clear (hf : f.toNat % 16 = 0) {k : Nat} (hk : k < 4) : f.getLsbD k = false := by
  have hlow : (f.extractLsb' 0 4).getLsbD k = (0#4).getLsbD k := by rw [(low_bits_clear f).2 hf]; rfl
  simpa [hk] using hlow

theorem scField_pack (hf : f.toNat % 16 = 0) (c : SizeClass) : scField (f ||| c.setWidth 64) = c.setWidth 4 := by
  refine slice_eq fun k hk => ?_
  rw [Nat.zero_add, BitVec.getLsbD_or, getLsbD_of_low_clear hf hk]
  simp [hk, show k < 64 by omega]

theorem getLsbD_offsetMask : ∀ k < 64, (0xFFFFFFFFFFFFFFF0#64).getLsbD k = decide (4 ≤ k) := by decide

theorem fromOffsetOf_pack (hf : f.toNat % 16 = 0) (c : SizeClass) : fromOffsetOf (f ||| c.setWidth 64) = f := by
  refine BitVec.eq_of_getLsbD_eq fun k hk => ?_
  rw [fromOffsetOf, BitVec.getLsbD_and, BitVec.getLsbD_or, getLsbD_offsetMask k hk, BitVec.getLsbD_setWidth]
  by_cases hlow : k < 4
  · rw [getLsbD_of_low_clear hf hlow]
    simp [hlow]
  · rw [BitVec.getLsbD_of_ge c k (by omega)]
    simp [Nat.le_of_not_lt hlow]

end Pack

/-! The forms of entries and of the table (R20, R22, R25) -/

theorem Slot.wf_iff (cfg : Config) (e : Slot) :
    Slot.wf cfg e = true ↔
      e.pfrom.getLsbD 3 = false ∧ aligned cfg ((scField e.pfrom).setWidth 3) (fromOffsetOf e.pfrom) = true ∧
        aligned cfg ((scField e.pfrom).setWidth 3) e.pto = true := by
  simp [Slot.wf, and_assoc]

/-- R25 says nothing of the bit that `ENABLE` and `DISABLE` write. -/
theorem Slot.wf_setEnabled (cfg : Config) (e : Slot) (b : Bool) :
    Slot.wf cfg { e with enabled := b } = Slot.wf cfg e := rfl

/-- R25: what a successful `INSTALL` stores. -/
theorem newEntry_wf {cfg : Config} {f o : Addr} {c : SizeClass} (hf : aligned cfg c f = true)
    (ho : aligned cfg c o = true) : Slot.wf cfg (newEntry f o c) = true := by
  have hlow := aligned_mod hf
  have hclass : ((scField (newEntry f o c).pfrom).setWidth 3 : SizeClass) = c := by
    rw [newEntry, scField_pack hlow, BitVec.setWidth_setWidth_of_le _ (by decide), BitVec.setWidth_eq]
  refine (Slot.wf_iff _ _).2 ⟨?_, ?_, ?_⟩
  · rw [newEntry, BitVec.getLsbD_or, getLsbD_of_low_clear hlow (by decide), BitVec.getLsbD_setWidth,
      BitVec.getLsbD_of_ge c 3 (by decide), Bool.and_false, Bool.or_false]
  · rw [hclass, newEntry, fromOffsetOf_pack hlow]
    exact hf
  · rw [hclass]
    exact ho

theorem Table.wf_iff (cfg : Config) (T : Table) :
    Table.wf cfg T = true ↔
      Keyed.rising T = true ∧ ∀ p ∈ T, p.1 < cfg.capacity ∧ Slot.wf cfg p.2 = true := by
  simp [Table.wf]

theorem Table.wf_nil (cfg : Config) : Table.wf cfg [] = true := rfl

theorem Table.wf_put {cfg : Config} {T : Table} {k : Nat} {e : Slot} (hT : Table.wf cfg T = true)
    (hk : k < cfg.capacity) (he : Slot.wf cfg e = true) : Table.wf cfg (Keyed.put k e T) = true := by
  obtain ⟨hrising, hall⟩ := (Table.wf_iff cfg T).1 hT
  refine (Table.wf_iff _ _).2 ⟨Keyed.rising_put k e T hrising, fun p hp => ?_⟩
  obtain rfl | hp := Keyed.mem_put hp
  · exact ⟨hk, he⟩
  · exact hall p hp

/-! The invariant of reachable states, one lemma per transition -/

section Invariant
variable {s t : State}

theorem State.wf_iff (s : State) :
    s.wf = true ↔ s.cfg.wellFormed = true ∧ Table.wf s.cfg s.table = true ∧ s.mem.wf = true := by
  simp [State.wf, and_assoc]

@[simp] theorem wf_respond (s : State) (r : Response) : (s.respond r).wf = s.wf := rfl
@[simp] theorem wf_raise (s : State) (k : ErrorKind) : (s.raise k).wf = s.wf := rfl
@[simp] theorem wf_applyReset (s : State) : s.applyReset.wf = s.clearTable.wf := rfl
@[simp] theorem wf_withInputs (s : State) (l : List Input) : (s.withInputs l).wf = s.wf := rfl

theorem wf_clearTable (hs : s.wf = true) : s.clearTable.wf = true := by
  obtain ⟨hcfg, _, hmem⟩ := (State.wf_iff s).1 hs
  exact (State.wf_iff _).2 ⟨hcfg, Table.wf_nil _, hmem⟩

theorem wf_setEntry (hs : s.wf = true) {k : Nat} (hk : k < s.cfg.capacity) {e : Slot}
    (he : Slot.wf s.cfg e = true) : (s.setEntry k e).wf = true := by
  obtain ⟨hcfg, htable, hmem⟩ := (State.wf_iff s).1 hs
  exact (State.wf_iff _).2 ⟨hcfg, Table.wf_put htable hk he, hmem⟩

/-- R25, for the entry present at an index. -/
theorem slot_wf_of_entry (hs : s.wf = true) {k : Nat} {e : Slot} (he : s.entry k = some e) :
    Slot.wf s.cfg e = true := by
  obtain ⟨_, htable, _⟩ := (State.wf_iff s).1 hs
  have hfind : Keyed.find k s.table = some e := by
    rwa [State.entry, if_pos (entry_lt he)] at he
  obtain ⟨_, hlisted⟩ := (Table.wf_iff _ _).1 htable
  exact (hlisted _ (Keyed.mem_of_find hfind)).2

theorem wf_install (hs : s.wf = true) (idx : Index) (f o : Addr) (c : SizeClass) :
    (s.install idx f o c).wf = true := by
  obtain ⟨_, h⟩ | ⟨_, _, h⟩ | ⟨hidx, hf, ho, h⟩ := install_cases s idx f o c
  · rwa [h, wf_raise]
  · rwa [h, wf_raise]
  · rw [h, wf_respond]
    exact wf_setEntry hs hidx (newEntry_wf hf ho)

theorem wf_setEnabled (hs : s.wf = true) (idx : Index) (b : Bool) : (s.setEnabled idx b).wf = true := by
  obtain ⟨_, h⟩ | ⟨e, he, h⟩ := setEnabled_cases s idx b
  · rwa [h, wf_raise]
  · rw [h, wf_respond]
    refine wf_setEntry hs (entry_lt he) ?_
    rw [Slot.wf_setEnabled]
    exact slot_wf_of_entry hs he

theorem wf_exec {i : Instr} (hs : s.wf = true) (h : exec i s = .next t) : t.wf = true := by
  cases i with
  | install idx f o c =>
    cases h
    exact wf_install hs idx f o c
  | enable idx =>
    cases h
    exact wf_setEnabled hs idx true
  | disable idx =>
    cases h
    exact wf_setEnabled hs idx false
  | flush =>
    cases h
    rw [wf_respond]
    exact wf_clearTable hs
  | _ =>
    rw [exec_frame_of_untouched (fun _ => rfl) h]
    exact hs

theorem wf_busRead (hs : s.wf = true) (a : Addr) (n : Nat) : (s.busRead a n).wf = true := by
  rwa [State.wf, busRead_cfg, busRead_table, busRead_mem]

theorem wf_busWrite (hs : s.wf = true) (a : Addr) (bytes : List Byte) : (s.busWrite a bytes).wf = true := by
  obtain ⟨hcfg, htable, hmem⟩ := (State.wf_iff s).1 hs
  rw [State.wf_iff, busWrite_cfg, busWrite_table]
  exact ⟨hcfg, htable, writeThrough_wf bytes s a hmem⟩

end Invariant

/-- Settles O9: an empty table and an empty memory are in form. -/
theorem resetMeetsInvariant : Obligations.ResetMeetsInvariant :=
  (State.wf_iff State.reset).2 ⟨rfl, Table.wf_nil _, Memory.wf_reset⟩

/-- Settles O10: by the kind of the next input, which the invariant does not read. -/
theorem stepKeepsTableAndMemoryForm : Obligations.StepKeepsTableAndMemoryForm := by
  intro s t hs h
  have hpopped (rest : List Input) : (s.withInputs rest).wf = true := hs
  obtain ⟨_, rfl⟩ | ⟨r, rest, _, hexec⟩ | ⟨a, n, rest, _, rfl⟩ | ⟨a, bytes, rest, _, rfl⟩ | ⟨rest, _, rfl⟩ :=
    step_cases h
  · exact hs
  · exact wf_exec (hpopped rest) hexec
  · exact wf_busRead (hpopped rest) a n
  · exact wf_busWrite (hpopped rest) a bytes
  · rw [wf_applyReset]
    exact wf_clearTable (hpopped rest)

end Sys2Proof.Machine
end

section
/-! PROOFS of the statements of 20_memory.md: the translation, what no operation reads, runs of presentations,
reads without side effect, and the bus observer's accesses byte by byte. -/

namespace Sys2Proof.Machine

/-! The translation (R43, R44) -/

section Translate
variable {s : State} {a : Addr}

theorem redirects_of_entry {i : Nat} {e : Slot} (h : s.entry i = some e) (a : Addr) :
    s.redirects i a = (e.enabled && inSource s.cfg e a) := by
  rw [State.redirects, h]

theorem destinationOf_of_entry {i : Nat} {e : Slot} (h : s.entry i = some e) (a : Addr) :
    s.destinationOf i a = destination s.cfg e a := by
  rw [State.destinationOf, h]

theorem eq_of_redirects_of_length_matching_le_one (h : (s.matching a).length ≤ 1) {i j : Nat}
    (hi : s.redirects i a = true) (hj : s.redirects j a = true) : i = j := by
  rw [← mem_matching] at hi hj
  obtain ⟨k, hk⟩ := List.length_eq_one_iff.1 (le_antisymm h (List.length_pos_of_mem hi))
  rw [hk, List.mem_singleton] at hi hj
  exact hi.trans hj.symm

/-- R43 and R44 ask nothing of the counter of choices. -/
theorem translation_allowed_of_choices (s : State) (n : Nat) (a : Addr) :
    s.mayTranslate a ({ s with choices := n }.translation a) :=
  translation_allowed { s with choices := n } a

/-- Where at most one entry catches the address, R43 and R44 allow one translation only. -/
theorem mayTranslate_unique (huniq : ∀ i j, s.redirects i a = true → s.redirects j a = true → i = j)
    {t u : Translation} (ht : s.mayTranslate a t) (hu : s.mayTranslate a u) : t = u := by
  obtain ⟨hmiss, rfl⟩ | ⟨i, hi, rfl⟩ := ht <;> obtain ⟨hmiss', rfl⟩ | ⟨j, hj, rfl⟩ := hu
  · rfl
  · exact absurd hj (by simp [hmiss])
  · exact absurd hi (by simp [hmiss'])
  · rw [huniq i j hi hj]

/-- R43, the case of one match. -/
theorem translation_of_unique {i : Nat} (hi : s.redirects i a = true)
    (huniq : ∀ j, s.redirects j a = true → j = i) :
    s.translation a = { hit := true, addr := s.destinationOf i a } :=
  mayTranslate_unique (fun _ _ hj hk => (huniq _ hj).trans (huniq _ hk).symm) (translation_allowed s a)
    (.inr ⟨i, hi, rfl⟩)

/-- R44: an evaluation counts one choice where several entries catch the address, and else none. -/
theorem afterTranslation_eq (s : State) (a : Addr) :
    s.afterTranslation a =
      { s with choices := s.choices + if 2 ≤ (s.matching a).length then 1 else 0 } := by
  obtain ⟨h, hle⟩ | ⟨h, hge⟩ := afterTranslation_cases s a
  · rw [h, if_neg (by omega), Nat.add_zero]
  · rw [h, if_pos hge, State.drawChoice]

theorem afterTranslation_of_le_one (h : (s.matching a).length ≤ 1) : s.afterTranslation a = s := by
  rw [afterTranslation_eq, if_neg (by omega), Nat.add_zero]

end Translate

/-- Settles O39: both translations are allowed by R44, which under R139 allows one only. -/
theorem disjointRangesNeedNoChoice : Obligations.DisjointRangesNeedNoChoice := by
  intro s hdisjoint n a i
  have huniq : ∀ i j, s.redirects i a = true → s.redirects j a = true → i = j := fun _ _ =>
    eq_of_redirects_of_length_matching_le_one (hdisjoint a)
  exact ⟨mayTranslate_unique huniq (translation_allowed_of_choices s n a) (translation_allowed s a),
    fun hi => translation_of_unique hi fun j hj => huniq j i hj hi⟩

/-- Settles O38: the one evaluation of the translation, by what R44 allows. -/
theorem translationFollowsMatchingEntry : Obligations.TranslationFollowsMatchingEntry := by
  intro s a
  refine ⟨(s.afterTranslation a).emit (.translated (s.translation a)), s.translation a, rfl, rfl,
    translation_allowed s a, ?_, exec_frame_of_untouched (i := .translate a) (fun _ => rfl) rfl, ?_⟩
  · intro i e he henabled hinside hothers
    have hi : s.redirects i a = true := by
      rw [redirects_of_entry he, henabled, Bool.true_and]
      exact decide_eq_true hinside
    have huniq : ∀ j, s.redirects j a = true → j = i := fun j hj => by
      by_contra hne
      simp [hothers j hne] at hj
    rw [translation_of_unique hi huniq, destinationOf_of_entry he]
    rfl
  · intro hle
    rw [emit_choices, afterTranslation_of_le_one hle]

/-! What no operation reads: the record of the last output (R112) and the pending inputs (R31) -/

section Unread
variable (s : State)

theorem afterTranslation_with_output (o : Option Output) (a : Addr) :
    { s with output := o }.afterTranslation a = { s.afterTranslation a with output := o } := by
  rw [afterTranslation_eq, afterTranslation_eq]
  rfl

/-- 60_exceptions.md R112, R119: no operation depends on the answer to an earlier one. -/
theorem exec_with_output (i : Instr) (o : Option Output) : exec i { s with output := o } = exec i s := by
  cases i with
  | translate a =>
    rw [exec, execTranslate, afterTranslation_with_output]
    rfl
  | _ => rfl

theorem install_withInputs (l : List Input) (idx : Index) (f o : Addr) (c : SizeClass) :
    (s.withInputs l).install idx f o c = (s.install idx f o c).withInputs l := by
  simp only [State.install, withInputs_cfg, apply_ite (State.withInputs · l)]
  cases packFrom f c <;> cases packTo o <;> rfl

theorem setEnabled_withInputs (l : List Input) (idx : Index) (b : Bool) :
    (s.withInputs l).setEnabled idx b = (s.setEnabled idx b).withInputs l := by
  simp only [State.setEnabled, entry_withInputs]
  split <;> rfl

theorem readField_withInputs (l : List Input) (idx : Index) (field : Slot → Addr) :
    (s.withInputs l).readField idx field = (s.readField idx field).withInputs l := by
  simp only [State.readField, entry_withInputs]
  split <;> rfl

theorem afterTranslation_withInputs (l : List Input) (a : Addr) :
    (s.withInputs l).afterTranslation a = (s.afterTranslation a).withInputs l := by
  rw [afterTranslation_eq, afterTranslation_eq]
  rfl

end Unread

/-- 10_state.md R31: an operation neither reads nor takes an input that is still to come. -/
theorem exec_withInputs {i : Instr} {s t : State} (l : List Input) (h : exec i s = .next t) :
    exec i (s.withInputs l) = .next (t.withInputs l) := by
  cases i with
  | install idx f o c =>
    cases h
    exact congrArg _ (install_withInputs s l idx f o c)
  | enable idx =>
    cases h
    exact congrArg _ (setEnabled_withInputs s l idx true)
  | disable idx =>
    cases h
    exact congrArg _ (setEnabled_withInputs s l idx false)
  | readFrom idx =>
    cases h
    exact congrArg _ (readField_withInputs s l idx Slot.pfrom)
  | readTo idx =>
    cases h
    exact congrArg _ (readField_withInputs s l idx Slot.pto)
  | translate a =>
    cases h
    rw [exec, execTranslate, afterTranslation_withInputs]
    rfl
  | _ =>
    cases h
    rfl

/-! Runs of presentations (R54) -/

theorem run_succ_of_step {M : Host.Core} {s t : M.State} (h : M.step s = .next t) (k : Nat) :
    M.run (k + 1) s = M.run k t := by
  rw [Host.Core.run, h]

theorem execAll_cons_of_exec {i : Instr} {s t : State} (h : exec i s = .next t) (rest : List Instr) :
    execAll (i :: rest) s = execAll rest t := by
  rw [execAll, h]

/-- Settles O7, by induction on the presentations: the step takes the first of them, and the operation leaves the
others pending. -/
theorem runIsFoldOfOperations : Obligations.RunIsFoldOfOperations := by
  intro rs
  induction rs with
  | nil =>
    rintro s rest (hinputs : s.inputs = rest)
    subst hinputs
    rfl
  | cons r rs ih =>
    intro s rest hinputs
    obtain ⟨t, ht⟩ := exec_completes (decode r) s
    have hstep : step s = .next (t.withInputs (rs.map .request ++ rest)) :=
      (step_of_request hinputs).trans (exec_withInputs _ ht)
    have hrun : Host.Core.run Sys2Proof.core rs.length (t.withInputs (rs.map .request ++ rest)) =
        execAll (rs.map decode) (t.withInputs rest) := ih _ rest rfl
    have hfold : execAll ((r :: rs).map decode) (s.withInputs rest) = execAll (rs.map decode) (t.withInputs rest) :=
      execAll_cons_of_exec (exec_withInputs rest ht) _
    exact (run_succ_of_step (M := Sys2Proof.core) hstep rs.length).trans (hrun.trans hfold.symm)

/-! Reads (R52) -/

theorem exec_translate_frame {s t : State} {a : Addr} (hle : (s.matching a).length ≤ 1)
    (h : exec (.translate a) s = .next t) : t = { s with output := t.output } := by
  cases h
  rw [afterTranslation_of_le_one hle]
  rfl

/-- An operation that writes nothing but its answer answers the same again. -/
theorem exec_again {i : Instr} {s t : State} (hframe : t = { s with output := t.output })
    (h : exec i s = .next t) : exec i t = .next t :=
  calc exec i t
      _ = exec i { s with output := t.output } := congrArg (exec i) hframe
      _ = exec i s := exec_with_output s i t.output
      _ = .next t := h

/-- Settles O25: each of the operations named writes its answer alone, and none reads it. -/
theorem readsHaveNoSideEffect : Obligations.ReadsHaveNoSideEffect := by
  intro i s t hi h
  suffices hframe : t = { s with output := t.output } from ⟨hframe, exec_again hframe h⟩
  obtain ⟨idx, hmem⟩ | rfl | ⟨a, rfl, hle⟩ := hi
  · simp only [List.mem_cons, List.not_mem_nil, or_false] at hmem
    obtain rfl | rfl | rfl := hmem <;> cases h
    · exact readField_frame s idx Slot.pfrom
    · exact readField_frame s idx Slot.pto
    · rfl
  · cases h
    rfl
  · exact exec_translate_frame hle h

/-! The bytes of a bus access (R47): their addresses and their translations -/

section Bytes
variable (s : State) (a : Addr)

theorem byteAddr_zero : byteAddr a 0 = a := by simp [byteAddr]

theorem byteAddr_succ (k : Nat) : byteAddr a (k + 1) = byteAddr (a + 1) k := by
  simp only [byteAddr]
  bv_omega

theorem countBelow_succ (p : Nat → Bool) (n : Nat) :
    countBelow p (n + 1) = (if p 0 = true then 1 else 0) + countBelow (fun k => p (k + 1)) n := by
  simp only [countBelow, List.range_succ_eq_map, List.filter_cons, List.filter_map, Function.comp_def]
  split <;> simp [Nat.add_comm]

theorem byteTarget_zero : s.byteTarget a 0 = s.translation a := by
  rw [State.byteTarget, byteAddr_zero]
  rfl

/-- The bytes after the first go where the rest of the access sends them, by the same table and with the choice
that the first byte may draw already counted. -/
theorem byteTarget_succ (k : Nat) :
    s.byteTarget a (k + 1) = (s.afterTranslation a).byteTarget (a + 1) k := by
  simp only [State.byteTarget, countBelow_succ, byteAddr_succ, byteAddr_zero, decide_eq_true_eq, ← Nat.add_assoc]
  rw [afterTranslation_eq]
  rfl

/-- The bytes of an access are all translated by the table as the access finds it: a store moves no target. -/
@[simp] theorem byteTarget_writeByte (p : Addr) (b : Byte) (k : Nat) :
    (s.writeByte p b).byteTarget a k = s.byteTarget a k := rfl

theorem byteTarget_allowed (k : Nat) : s.mayTranslate (byteAddr a k) (s.byteTarget a k) :=
  translation_allowed_of_choices s _ (byteAddr a k)

@[simp] theorem readByte_afterTranslation (p : Addr) : (s.afterTranslation a).readByte p = s.readByte p :=
  congrArg (Memory.read · p) (afterTranslation_mem s a)

end Bytes

/-! A bus read -/

theorem readThrough_getElem? (n : Nat) : ∀ (s : State) (a : Addr) (k : Nat), k < n →
    (s.readThrough a n).1[k]? = some (s.readByte (s.byteTarget a k).addr) := by
  induction n with
  | zero => exact fun _ _ k hk => absurd hk (Nat.not_lt_zero k)
  | succ n ih =>
    intro s a k hk
    cases k with
    | zero => rw [byteTarget_zero]; rfl
    | succ k =>
      calc (s.readThrough a (n + 1)).1[k + 1]?
          _ = ((s.afterTranslation a).readThrough (a + 1) n).1[k]? := rfl
          _ = some (s.readByte (s.byteTarget a (k + 1)).addr) := by
            rw [ih _ _ k (Nat.lt_of_succ_lt_succ hk), readByte_afterTranslation, ← byteTarget_succ]

@[simp] theorem busRead_inputs (s : State) (a : Addr) (n : Nat) : (s.busRead a n).inputs = s.inputs := by
  rw [State.busRead, emit_inputs, readThrough_frame]

/-- Settles O41: the step's equation for a bus read, and the bytes that it answers. -/
theorem busReadTranslatesEachByte : Obligations.BusReadTranslatesEachByte := by
  intro s a n rest hinputs
  exact ⟨(s.withInputs rest).busRead a n, ((s.withInputs rest).readThrough a n).1, step_of_busRead hinputs, rfl,
    readThrough_length n _ a, fun k hk => ⟨readThrough_getElem? n _ a k hk, byteTarget_allowed s a k⟩,
    fun p => congrArg (Memory.read · p) (busRead_mem _ a n), busRead_table _ a n, busRead_cfg _ a n,
    busRead_inputs _ a n⟩

/-! A bus write -/

/-- R47, D18: the first byte stored, the other bytes go where the access as a whole sends them. -/
theorem byteTarget_after_store (s : State) (a p : Addr) (b : Byte) (k : Nat) :
    ((s.afterTranslation a).writeByte p b).byteTarget (a + 1) k = s.byteTarget a (k + 1) := by
  rw [byteTarget_writeByte, byteTarget_succ]

theorem readByte_writeThrough_of_not_target (bytes : List Byte) : ∀ (s : State) (a p : Addr),
    (∀ k, k < bytes.length → (s.byteTarget a k).addr ≠ p) → (s.writeThrough a bytes).readByte p = s.readByte p := by
  induction bytes with
  | nil => exact fun _ _ _ _ => rfl
  | cons b bytes ih =>
    intro s a p hp
    have hfirst : p ≠ (s.translation a).addr := by
      rw [← byteTarget_zero]
      exact (hp 0 (Nat.zero_lt_succ _)).symm
    rw [State.writeThrough, ih, readByte_writeByte, if_neg hfirst, readByte_afterTranslation]
    intro k hk
    rw [byteTarget_after_store]
    exact hp (k + 1) (Nat.succ_lt_succ hk)

/-- The last byte stored to an address stays. -/
theorem readByte_writeThrough_of_last (bytes : List Byte) : ∀ (s : State) (a : Addr) (k : Nat), k < bytes.length →
    (∀ m, k < m → m < bytes.length → (s.byteTarget a m).addr ≠ (s.byteTarget a k).addr) →
    bytes[k]? = some ((s.writeThrough a bytes).readByte (s.byteTarget a k).addr) := by
  induction bytes with
  | nil => exact fun _ _ k hk => absurd hk (Nat.not_lt_zero k)
  | cons b bytes ih =>
    intro s a k hk hlast
    cases k with
    | zero =>
      rw [State.writeThrough, readByte_writeThrough_of_not_target, byteTarget_zero, readByte_writeByte, if_pos rfl]
      · rfl
      · intro m hm
        rw [byteTarget_after_store]
        exact hlast (m + 1) (Nat.zero_lt_succ m) (Nat.succ_lt_succ hm)
    | succ k =>
      rw [State.writeThrough, List.getElem?_cons_succ, ← byteTarget_after_store]
      refine ih _ _ k (Nat.lt_of_succ_lt_succ hk) fun m hkm hm => ?_
      rw [byteTarget_after_store, byteTarget_after_store]
      exact hlast (m + 1) (Nat.succ_lt_succ hkm) (Nat.succ_lt_succ hm)

@[simp] theorem busWrite_inputs (s : State) (a : Addr) (bytes : List Byte) :
    (s.busWrite a bytes).inputs = s.inputs := by
  rw [State.busWrite, emit_inputs, writeThrough_frame]

/-- Settles O42: the step's equation for a bus write, and what each byte of memory reads as after the stores. -/
theorem busWriteTranslatesEachByte : Obligations.BusWriteTranslatesEachByte := by
  intro s a bytes rest hinputs
  exact ⟨(s.withInputs rest).busWrite a bytes, step_of_busWrite hinputs, rfl,
    readByte_writeThrough_of_not_target bytes (s.withInputs rest) a,
    readByte_writeThrough_of_last bytes (s.withInputs rest) a, busWrite_table _ a bytes, busWrite_cfg _ a bytes,
    busWrite_inputs _ a bytes⟩

end Sys2Proof.Machine
end

section
/-! PROOFS of the statements of 30_encoding.md: the decoder port by port, numbers on a port, what the encoder
drives, and the response ports. -/

namespace Sys2Proof

/-! Commands: the operation is the op code's, at the values on the ports that it uses (R60 to R62) -/

/-- An op code's number, either way (R61). -/
theorem Opcode.ofBits_eq_iff {b : BitVec 3} {op : Opcode} : Opcode.ofBits b = op ↔ b = op.toBits :=
  ⟨fun h => by rw [← h, Opcode.toBits_ofBits], fun h => by rw [h, Opcode.ofBits_toBits]⟩

/-- The command that an op code names, at the values on the other four ports (R61, R73). -/
def Opcode.operation (op : Opcode) (index : Index) (fromOffset toOffset : Addr) (sizeClass : SizeClass) : Instr :=
  match op with
  | .install => .install index fromOffset toOffset sizeClass
  | .enable => .enable index
  | .disable => .disable index
  | .flush => .flush
  | .readFrom => .readFrom index
  | .readTo => .readTo index
  | .version => .version
  | .groupMask => .groupMask index

/-- R62: a command is the same where the ports that its op code uses carry the same. -/
theorem Opcode.operation_congr {op : Opcode} {i i' : Index} {f f' t t' : Addr} {c c' : SizeClass}
    (hindex : op = .flush ∨ op = .version ∨ i = i') (hinstall : op = .install → f = f' ∧ t = t' ∧ c = c') :
    op.operation i f t c = op.operation i' f' t' c' := by
  cases op with
  | install =>
    obtain rfl : i = i' := by simpa using hindex
    obtain ⟨rfl, rfl, rfl⟩ := hinstall rfl
    rfl
  | flush | version => rfl
  | enable | disable | readFrom | readTo | groupMask =>
    obtain rfl : i = i' := by simpa using hindex
    rfl

/-- R74: the decoder reads the op code, and gives its operation the values on the ports. -/
theorem decodeCommand_eq (w : BitVec 166) :
    decodeCommand w =
      (Opcode.ofBits (opPort w)).operation (indexPort w) (fromOffsetPort w) (toOffsetPort w) (sizeClassPort w) :=
  rfl

theorem decodeCommand_commandVector (op : Opcode) (i : Index) (f t : Addr) (c : SizeClass) :
    decodeCommand (commandVector op i f t c) = op.operation i f t c := by
  simp [decodeCommand_eq]

/-! Numbers on a port group -/

/-- The bits of a presentation lie on the wires of its port group. -/
theorem Request.fits_toNat (r : Request) : r.port.fits r.toNat = true := by
  cases r <;> exact decide_eq_true (BitVec.isLt _)

theorem Request.ofNat_toNat (r : Request) : Request.ofNat r.port r.toNat = .ok r := by
  rw [Request.ofNat.eq_def, r.fits_toNat]
  cases r <;> simp [Request.port, Request.toNat]

/-- A presentation's number asks for what the presentation asks for. -/
theorem decodeNat_toNat (r : Request) : decodeNat r.port r.toNat = .ok (decode r) := by
  rw [decodeNat, r.ofNat_toNat]
  rfl

theorem decodeNat_commandVector (op : Opcode) (i : Index) (f t : Addr) (c : SizeClass) :
    decodeNat .command (commandVector op i f t c).toNat = .ok (op.operation i f t c) := by
  rw [← decodeCommand_commandVector]
  exact decodeNat_toNat (.command _)

theorem decodeNat_of_not_fits {p : Port} {w : Nat} (h : p.fits w = false) :
    decodeNat p w = .error .widerThanPort := by
  rw [decodeNat, Request.ofNat.eq_def, h]
  rfl

/-! The encoder (R60, R71, R72) -/

/-- The encoder drives the operation's own port group. -/
theorem encode_port (i : Instr) : (encode i).port = i.port :=
  match i with
  | .install i f t c => Laws.EncodePort.install i f t c
  | .enable i => Laws.EncodePort.enable i
  | .disable i => Laws.EncodePort.disable i
  | .flush => Laws.EncodePort.flush
  | .readFrom i => Laws.EncodePort.readFrom i
  | .readTo i => Laws.EncodePort.readTo i
  | .version => Laws.EncodePort.version
  | .groupMask g => Laws.EncodePort.groupMask g
  | .encodeFrom f c => Laws.EncodePort.encodeFrom f c
  | .encodeTo t => Laws.EncodePort.encodeTo t
  | .decodeSizeClass p => Laws.EncodePort.decodeSizeClass p
  | .decodeFromOffset p => Laws.EncodePort.decodeFromOffset p
  | .decodeToOffset p => Laws.EncodePort.decodeToOffset p
  | .translate a => Laws.EncodePort.translate a

/-- A command's vector and the vector of `ENCODE_FROM` give every operand back; the other inputs are the operand. -/
theorem decode_encode (i : Instr) : decode (encode i) = i := by
  cases i with
  | install | enable | disable | readFrom | readTo | groupMask => exact decodeCommand_commandVector _ _ _ _ _
  | flush => exact decodeCommand_commandVector .flush 0 0 0 0
  | version => exact decodeCommand_commandVector .version 0 0 0 0
  | encodeFrom f c =>
    rw [encode, decode, fromOffset_encodeFromVector, sizeClass_encodeFromVector]
  | encodeTo | decodeSizeClass | decodeFromOffset | decodeToOffset | translate => rfl

theorem decodeNat_encode (i : Instr) : decodeNat i.port (encode i).toNat = .ok i := by
  rw [← encode_port, decodeNat_toNat, decode_encode]

end Sys2Proof

namespace Sys2Proof.Machine

/-- Settles O3: each operand is read back from its port, and an encoding fits the port group that it drives. -/
theorem decodeOfEncodeIsIdentity : Obligations.DecodeOfEncodeIsIdentity :=
  fun i => ⟨decode_encode i, decodeNat_encode i⟩

/-- Settles O4: the two presentations decode to one operation. -/
theorem unusedPortsAreIgnored : Obligations.UnusedPortsAreIgnored := by
  intro v w hop hindex hinstall s
  have hdecode : decodeCommand v = decodeCommand w := by
    rw [decodeCommand_eq, decodeCommand_eq, ← hop]
    exact Opcode.operation_congr (hindex.imp Opcode.ofBits_eq_iff.2 (Or.imp_left Opcode.ofBits_eq_iff.2))
      fun h => hinstall (Opcode.ofBits_eq_iff.1 h)
  exact congrArg (exec · s) hdecode

/-- Settles O2: each word that fits is the number of a vector with the operands on its ports, `VERSION`'s with its
index port all ones. -/
theorem sampleWordsDecode : Obligations.SampleWordsDecode :=
  ⟨decodeNat_commandVector .install 113 0x100 0x200 7,
    decodeNat_commandVector .groupMask 3 0 0 0,
    decodeNat_commandVector .version 0xFFFFFFFF 0 0 0,
    decodeNat_encode (.encodeFrom 0x100 7),
    decodeNat_encode (.decodeSizeClass 0x107),
    decodeNat_encode (.translate 0x80000100),
    decodeNat_of_not_fits (by decide)⟩

/-- Settles O27: the tables of R64 and R65, row by row. -/
theorem responsePortValues : Obligations.ResponsePortValues :=
  ⟨rfl, fun _ => rfl, rfl, rfl, rfl, rfl, fun _ => rfl, fun _ => rfl⟩

end Sys2Proof.Machine
end

section
/-! PROOFS of the statements of 40_codec.md: the two packers and the unpackers bit by bit, what a codec unit
answers from any state, and the class check against the packers' checks. -/

namespace Sys2Proof.Machine

/-! What the packers accept (R80, R81) -/

section Packers
variable {f o p q : Addr} {c : SizeClass}

theorem packFrom_eq_ok_iff : packFrom f c = .ok p ↔ f.toNat % 16 = 0 ∧ p = f ||| c.setWidth 64 := by
  obtain ⟨hf, h⟩ | ⟨hf, h⟩ := packFrom_cases f c
  · simp [h, hf, eq_comm]
  · simp [h, hf]

theorem packFrom_eq_alignmentError_iff : packFrom f c = .alignmentError ↔ f.toNat % 16 ≠ 0 := by
  obtain ⟨hf, h⟩ | ⟨hf, h⟩ := packFrom_cases f c
  · simp [h, hf]
  · simp [h, hf]

theorem packTo_eq_ok_iff : packTo o = .ok q ↔ o.toNat % 16 = 0 ∧ q = o := by
  obtain ⟨ho, h⟩ | ⟨ho, h⟩ := packTo_cases o
  · simp [h, ho, eq_comm]
  · simp [h, ho]

theorem packTo_eq_alignmentError_iff : packTo o = .alignmentError ↔ o.toNat % 16 ≠ 0 := by
  obtain ⟨ho, h⟩ | ⟨ho, h⟩ := packTo_cases o
  · simp [h, ho]
  · simp [h, ho]

end Packers

/-! The two parts of a packed from value (R66, R82, R83) -/

section Parts
variable {p : Addr}

theorem getLsbD_fromOffsetOf (p : Addr) {k : Nat} (hk : k < 64) :
    (fromOffsetOf p).getLsbD k = (decide (4 ≤ k) && p.getLsbD k) := by
  rw [fromOffsetOf, BitVec.getLsbD_and, getLsbD_offsetMask k hk, Bool.and_comm]

/-- R83: the upper 60 bits over four zeros. -/
theorem fromOffsetOf_eq_append (p : Addr) : fromOffsetOf p = p.extractLsb' 4 60 ++ 0#4 := by
  refine BitVec.eq_of_getLsbD_eq fun k hk => ?_
  rw [getLsbD_fromOffsetOf p hk, BitVec.getLsbD_append, BitVec.getLsbD_extractLsb']
  by_cases hlow : k < 4
  · simp [hlow]
  · simp [hlow, Nat.le_of_not_lt hlow, show k - 4 < 60 by omega, show 4 + (k - 4) = k by omega]

/-- An unpacked offset passes the check of `ENCODE_FROM`. -/
theorem fromOffsetOf_mod (p : Addr) : (fromOffsetOf p).toNat % 16 = 0 :=
  (low_bits_clear _).1 (slice_eq fun k hk => by
    rw [Nat.zero_add, getLsbD_fromOffsetOf p (by omega)]
    simp [hk])

/-- A packed from value is its two parts, where bit 3, which no 3-bit class can set, is clear. -/
theorem pack_parts (h3 : p.getLsbD 3 = false) :
    fromOffsetOf p ||| ((scField p).setWidth 3).setWidth 64 = p := by
  refine BitVec.eq_of_getLsbD_eq fun k hk => ?_
  rw [BitVec.getLsbD_or, getLsbD_fromOffsetOf p hk, BitVec.getLsbD_setWidth, BitVec.getLsbD_setWidth, scField,
    BitVec.getLsbD_extractLsb', Nat.zero_add]
  obtain hlow | rfl | hhigh := Nat.lt_trichotomy k 3
  · simp [hk, hlow, show k < 4 by omega]
  · simpa using h3
  · simp [show 4 ≤ k by omega, show ¬ k < 3 by omega]

/-- The class that went into a packed from value. -/
theorem sizeClass_pack {f : Addr} (hf : f.toNat % 16 = 0) (c : SizeClass) :
    (scField (f ||| c.setWidth 64)).setWidth 3 = c := by
  rw [scField_pack hf, BitVec.setWidth_setWidth_of_le _ (by decide), BitVec.setWidth_eq]

end Parts

/-- Settles O35: by the two parts of a packed value. The parts are also what makes packing injective. -/
theorem packingRoundTrips : Obligations.PackingRoundTrips := by
  refine ⟨fun f c hf => ?_, fun o ho => ?_, fun p h3 => ?_, fun f f' c c' p h h' => ?_⟩
  · have hlow := (low_bits_clear f).1 hf
    exact ⟨_, packFrom_eq_ok_iff.2 ⟨hlow, rfl⟩, fromOffsetOf_pack hlow c, scField_pack hlow c⟩
  · exact ⟨o, packTo_eq_ok_iff.2 ⟨(low_bits_clear o).1 ho, rfl⟩, rfl⟩
  · exact packFrom_eq_ok_iff.2 ⟨fromOffsetOf_mod p, (pack_parts h3).symm⟩
  · obtain ⟨hf, hp⟩ := packFrom_eq_ok_iff.1 h
    obtain ⟨hf', hp'⟩ := packFrom_eq_ok_iff.1 h'
    have hsame : f ||| c.setWidth 64 = f' ||| c'.setWidth 64 := hp.symm.trans hp'
    constructor
    · rw [← fromOffsetOf_pack hf c, hsame, fromOffsetOf_pack hf']
    · rw [← sizeClass_pack hf c, hsame, sizeClass_pack hf']

/-- R8: a span of 16 bytes asks for no more than `MIN_GRAN`. -/
theorem gran_of_span_eq_minGran {cfg : Config} {c : SizeClass} (h : span cfg c = Config.minGran) :
    gran cfg c = Config.minGran := by
  rw [gran, h, max_self]

/-- Settles O36: both packers ask for a multiple of 16, and 16 divides every class granularity. -/
theorem classCheckImpliesPackerChecks : Obligations.ClassCheckImpliesPackerChecks := by
  refine fun cfg c x => ⟨minGran_dvd_gran cfg c, fun hx => ?_, fun hspan => ?_⟩
  · have hlow : x.toNat % 16 = 0 := aligned_mod ((aligned_iff cfg c x).2 hx)
    exact ⟨packFrom_eq_ok_iff.2 ⟨hlow, rfl⟩, packTo_eq_ok_iff.2 ⟨hlow, rfl⟩⟩
  · have hgran : gran cfg c = 16 := gran_of_span_eq_minGran hspan
    rw [hgran, packTo_eq_ok_iff, and_iff_left rfl]

/-! The units, from any state (R85) -/

section Units
variable (s : State)

theorem exec_encodeFrom (f : Addr) (c : SizeClass) :
    exec (.encodeFrom f c) s = .next (s.emit (.packedFrom (packFrom f c))) := rfl
theorem exec_encodeTo (o : Addr) : exec (.encodeTo o) s = .next (s.emit (.packedTo (packTo o))) := rfl
theorem exec_decodeSizeClass (p : Addr) : exec (.decodeSizeClass p) s = .next (s.emit (.sizeClass (scField p))) := rfl
theorem exec_decodeFromOffset (p : Addr) :
    exec (.decodeFromOffset p) s = .next (s.emit (.fromOffset (fromOffsetOf p))) := rfl
theorem exec_decodeToOffset (q : Addr) :
    exec (.decodeToOffset q) s = .next (s.emit (.toOffset (toOffsetOf q))) := rfl

end Units

/-- Settles O33: the answers of the two packers, by the check of each. -/
theorem encodersCheckReservedBits : Obligations.EncodersCheckReservedBits := by
  refine fun s f o c => ⟨fun hf => ?_, fun hf => ?_, fun ho => ?_, fun ho => ?_⟩
  · rw [exec_encodeFrom, packFrom_eq_ok_iff.2 ⟨(low_bits_clear f).1 hf, rfl⟩]
    rfl
  · rw [exec_encodeFrom, packFrom_eq_alignmentError_iff.2 (mt (low_bits_clear f).2 hf)]
    rfl
  · rw [exec_encodeTo, packTo_eq_ok_iff.2 ⟨ho, rfl⟩]
    rfl
  · rw [exec_encodeTo, packTo_eq_alignmentError_iff.2 ho]
    rfl

/-- Settles O34: the one field that the model writes otherwise than the statement is the offset's (R83). -/
theorem decodersExtractFields : Obligations.DecodersExtractFields := by
  refine fun s p => ⟨exec_decodeSizeClass s p, ?_, exec_decodeToOffset s p⟩
  rw [exec_decodeFromOffset, fromOffsetOf_eq_append]
  rfl

/-- R85: the output of a codec unit is chosen before the state that the unit runs from. -/
theorem exec_codec {i : Instr}
    (hport : i.port ∈ [Port.encodeFrom, .encodeTo, .decodeSizeClass, .decodeFromOffset, .decodeToOffset]) :
    ∃ o, (∀ s, exec i s = .next (s.emit o)) ∧ (∀ r, o ≠ .response r) ∧
      (o = .packedFrom .alignmentError → i.port = .encodeFrom) ∧
      (o = .packedTo .alignmentError → i.port = .encodeTo) := by
  cases i with
  | install | enable | disable | flush | readFrom | readTo | version | groupMask | translate =>
    simp [Instr.port] at hport
  | encodeFrom f c => exact ⟨_, fun s => exec_encodeFrom s f c, nofun, fun _ => rfl, nofun⟩
  | encodeTo o => exact ⟨_, fun s => exec_encodeTo s o, nofun, nofun, fun _ => rfl⟩
  | decodeSizeClass p => exact ⟨_, fun s => exec_decodeSizeClass s p, nofun, nofun, nofun⟩
  | decodeFromOffset p => exact ⟨_, fun s => exec_decodeFromOffset s p, nofun, nofun, nofun⟩
  | decodeToOffset q => exact ⟨_, fun s => exec_decodeToOffset s q, nofun, nofun, nofun⟩

/-- Settles O37: both states get the one output of the unit. -/
theorem codecIsPure : Obligations.CodecIsPure := by
  intro i s s' t t' hport h h'
  obtain ⟨o, hexec, hresponse, hfrom, hto⟩ := exec_codec hport
  obtain rfl : s.emit o = t := Host.Outcome.next.inj ((hexec s).symm.trans h)
  obtain rfl : s'.emit o = t' := Host.Outcome.next.inj ((hexec s').symm.trans h')
  exact ⟨rfl, rfl, fun r hr => hresponse r (Option.some.inj hr), fun hr => hfrom (Option.some.inj hr),
    fun hr => hto (Option.some.inj hr)⟩

end Sys2Proof.Machine
end

section
/-! PROOFS of the statements of 41_table_commands.md: the equation of each command for each of its outcomes, what a
command reads, what any operation can change, and what a run keeps of an installed entry. -/

namespace Sys2Proof.Machine

/-! Writing one slot again -/

theorem Keyed.put_put {α : Type} (k : Nat) (v w : α) (l : List (Nat × α)) :
    Keyed.put k v (Keyed.put k w l) = Keyed.put k v l := by
  induction l with
  | nil => simp [Keyed.put]
  | cons p rest ih =>
    obtain ⟨j, x⟩ := p
    obtain hlt | rfl | hgt := Nat.lt_trichotomy k j
    · simp [Keyed.put, hlt]
    · simp [Keyed.put]
    · simp [Keyed.put, Nat.lt_asymm hgt, Nat.ne_of_gt hgt, ih]

@[simp] theorem setEntry_setEntry (s : State) (k : Nat) (e e' : Slot) :
    (s.setEntry k e).setEntry k e' = s.setEntry k e' := by
  simp only [State.setEntry, Keyed.put_put]

@[simp] theorem setEntry_respond (s : State) (r : Response) (k : Nat) (e : Slot) :
    (s.respond r).setEntry k e = (s.setEntry k e).respond r := rfl

/-! The commands, outcome by outcome (R91 to R97) -/

section Outcomes
variable {s : State} {idx : Index} {f o : Addr} {c : SizeClass} {e : Slot}

theorem install_of_capacity_le (h : s.cfg.capacity ≤ idx.toNat) (f o : Addr) (c : SizeClass) :
    s.install idx f o c = s.raise .indexOutOfRange := by
  obtain ⟨_, heq⟩ | ⟨hlt, _⟩ | ⟨hlt, _⟩ := install_cases s idx f o c
  · exact heq
  · omega
  · omega

theorem install_of_not_aligned (hidx : idx.toNat < s.cfg.capacity)
    (h : aligned s.cfg c f = false ∨ aligned s.cfg c o = false) :
    s.install idx f o c = s.raise .alignmentError := by
  obtain ⟨hge, _⟩ | ⟨_, _, heq⟩ | ⟨_, hf, ho, _⟩ := install_cases s idx f o c
  · omega
  · exact heq
  · simp [hf, ho] at h

theorem install_of_aligned (hidx : idx.toNat < s.cfg.capacity) (hf : aligned s.cfg c f = true)
    (ho : aligned s.cfg c o = true) :
    s.install idx f o c = (s.setEntry idx.toNat (newEntry f o c)).respond .ok := by
  obtain ⟨hge, _⟩ | ⟨_, h, _⟩ | ⟨_, _, _, heq⟩ := install_cases s idx f o c
  · omega
  · simp [hf, ho] at h
  · exact heq

theorem setEnabled_of_entry (h : s.entry idx.toNat = some e) (b : Bool) :
    s.setEnabled idx b = (s.setEntry idx.toNat { e with enabled := b }).respond .ok := by
  rw [State.setEnabled, h]

theorem readField_of_entry (h : s.entry idx.toNat = some e) (field : Slot → Addr) :
    s.readField idx field = s.respond (.value (field e)) := by
  rw [State.readField, h]

end Outcomes

/-- `ENABLE` and `DISABLE` are one operation, with the bit to write as its operand. -/
theorem exec_enable_or_disable (s : State) (idx : Index) (b : Bool) :
    exec (if b then .enable idx else .disable idx) s = .next (s.setEnabled idx b) := by
  cases b <;> rfl

theorem setEnabled_setEnabled (s : State) (idx : Index) (b : Bool) :
    (s.setEnabled idx b).setEnabled idx b = s.setEnabled idx b := by
  obtain ⟨habsent, h⟩ | ⟨e, he, h⟩ := setEnabled_cases s idx b
  · rw [h]
    exact setEnabled_of_absent habsent b
  · have hstored : (s.setEnabled idx b).entry idx.toNat = some { e with enabled := b } := by
      simp [entry_setEnabled, he]
    rw [setEnabled_of_entry hstored, h, setEntry_respond, setEntry_setEntry]
    rfl

/-- Settles O16: the equation of the two reads where an entry is present. -/
theorem readsReturnStoredValues : Obligations.ReadsReturnStoredValues :=
  fun _ _ _ he => ⟨congrArg _ (readField_of_entry he Slot.pfrom), congrArg _ (readField_of_entry he Slot.pto)⟩

/-- Settles O12: the state is the one with that slot written, under a response. -/
theorem installStoresDisabledEntry : Obligations.InstallStoresDisabledEntry := by
  intro s idx f o c hidx hf ho
  have hslot (j : Nat) := entry_setEntry s idx.toNat j (newEntry f o c) hidx
  refine ⟨(s.setEntry idx.toNat (newEntry f o c)).respond .ok, ?_, rfl, ?_, fun j hj => ?_, fun _ => rfl, rfl, rfl,
    rfl⟩
  · exact congrArg _ (install_of_aligned hidx ((aligned_iff _ _ _).2 hf) ((aligned_iff _ _ _).2 ho))
  · rw [entry_respond, hslot, if_pos rfl]
    rfl
  · rw [entry_respond, hslot, if_neg hj]

/-- Settles O15: the state is the one with that slot written, under a response; writing it again changes nothing. -/
theorem enableDisableWriteOneBit : Obligations.EnableDisableWriteOneBit := by
  intro s idx e b he
  have hwritten := setEnabled_of_entry he b
  refine ⟨s.setEnabled idx b, exec_enable_or_disable s idx b, ?_, ?_, fun j hj => ?_, fun a => ?_,
    setEnabled_cfg s idx b, ?_, ?_, ?_⟩
  · rw [hwritten, respond_output]
  · rw [entry_setEnabled, if_pos rfl, he]
    rfl
  · rw [entry_setEnabled, if_neg hj.symm]
  · rw [hwritten, readByte_respond, readByte_setEntry]
  · rw [hwritten, respond_inputs, setEntry_inputs]
  · rw [hwritten, respond_choices, setEntry_choices]
  · rw [exec_enable_or_disable, setEnabled_setEnabled]

/-- Settles O18: after `FLUSH` no entry is listed, and the rest follows as it does at reset. -/
theorem flushEmptiesTable : Obligations.FlushEmptiesTable := by
  intro s
  have habsent : ∀ i, (s.clearTable.respond .ok).entry i = none := entry_of_empty rfl
  exact ⟨s.clearTable.respond .ok, rfl, rfl, habsent, validWord_of_no_entry habsent,
    translation_of_no_entry habsent, fun idx i hi => exec_of_absent (habsent idx.toNat) hi⟩

/-- Settles O19: `VERSION_ID` is a part of the configuration, which no operation changes. -/
theorem versionReturnsConstant : Obligations.VersionReturnsConstant := by
  refine fun s => ⟨rfl, fun i t h => ?_⟩
  rw [← exec_cfg h]
  rfl

/-! What is computed from one slot -/

section Congr
variable {s t : State} {j : Nat}

theorem validBit_congr (h : t.entry j = s.entry j) : t.validBit j = s.validBit j := by
  rw [State.validBit, State.validBit, h]

theorem redirects_congr (hcfg : t.cfg = s.cfg) (h : t.entry j = s.entry j) (a : Addr) :
    t.redirects j a = s.redirects j a := by
  rw [State.redirects, State.redirects, h, hcfg]

end Congr

/-! What a command reads and writes (R90, R33) -/

/-- The two states hold the same table and the same of the parameters that a command reads (10_state.md R33). -/
structure SameForCommands (s s' : State) : Prop where
  table : s'.table = s.table
  capacity : s'.cfg.capacity = s.cfg.capacity
  spanLog : s'.cfg.spanLog = s.cfg.spanLog
  versionId : s'.cfg.versionId = s.cfg.versionId

namespace SameForCommands
variable {s s' : State}

theorem refl (s : State) : SameForCommands s s := ⟨rfl, rfl, rfl, rfl⟩

theorem entry_eq (hs : SameForCommands s s') (i : Nat) : s'.entry i = s.entry i := by
  rw [State.entry, State.entry, hs.table, hs.capacity]

theorem validWord_eq (hs : SameForCommands s s') (g : Nat) : s'.validWord g = s.validWord g := by
  have hbit : s'.validBit = s.validBit := funext fun j => validBit_congr (hs.entry_eq j)
  rw [State.validWord, State.validWord, hbit]

theorem span_eq (hs : SameForCommands s s') (c : SizeClass) : span s'.cfg c = span s.cfg c :=
  congrArg (fun spans : Vector Nat 8 => 2 ^ spans[c.toNat]'c.isLt) hs.spanLog

theorem aligned_eq (hs : SameForCommands s s') (c : SizeClass) (x : Addr) :
    aligned s'.cfg c x = aligned s.cfg c x := by
  rw [aligned, aligned, gran, gran, hs.span_eq]

end SameForCommands

/-- From every state that is as `s` to commands, `run` writes one and the same table and response, and no more. -/
def AnswersAlike (s : State) (run : State → State) : Prop :=
  ∃ (T : Table) (r : Response), ∀ s', SameForCommands s s' → run s' = { s' with table := T }.respond r

section Alike
variable (s : State)

theorem answersAlike_install (idx : Index) (f o : Addr) (c : SizeClass) :
    AnswersAlike s (State.install · idx f o c) := by
  obtain ⟨hidx, _⟩ | ⟨hidx, hmis, _⟩ | ⟨hidx, hf, ho, _⟩ := install_cases s idx f o c
  · refine ⟨s.table, .error .indexOutOfRange, fun s' hs => ?_⟩
    rw [← hs.capacity] at hidx
    rw [← hs.table]
    exact install_of_capacity_le hidx f o c
  · refine ⟨s.table, .error .alignmentError, fun s' hs => ?_⟩
    rw [← hs.capacity] at hidx
    rw [← hs.aligned_eq, ← hs.aligned_eq] at hmis
    rw [← hs.table]
    exact install_of_not_aligned hidx hmis
  · refine ⟨Keyed.put idx.toNat (newEntry f o c) s.table, .ok, fun s' hs => ?_⟩
    rw [← hs.capacity] at hidx
    rw [← hs.aligned_eq] at hf ho
    rw [← hs.table]
    exact install_of_aligned hidx hf ho

theorem answersAlike_setEnabled (idx : Index) (b : Bool) : AnswersAlike s (State.setEnabled · idx b) := by
  obtain ⟨habsent, _⟩ | ⟨e, he, _⟩ := setEnabled_cases s idx b
  · refine ⟨s.table, .error .notInstalled, fun s' hs => ?_⟩
    rw [← hs.table]
    exact setEnabled_of_absent ((hs.entry_eq _).trans habsent) b
  · refine ⟨Keyed.put idx.toNat { e with enabled := b } s.table, .ok, fun s' hs => ?_⟩
    rw [← hs.table]
    exact setEnabled_of_entry ((hs.entry_eq _).trans he) b

theorem answersAlike_readField (idx : Index) (field : Slot → Addr) :
    AnswersAlike s (State.readField · idx field) := by
  obtain ⟨habsent, _⟩ | ⟨e, he, _⟩ := readField_cases s idx field
  · refine ⟨s.table, .error .notInstalled, fun s' hs => ?_⟩
    rw [← hs.table]
    exact readField_of_absent ((hs.entry_eq _).trans habsent) field
  · refine ⟨s.table, .value (field e), fun s' hs => ?_⟩
    rw [← hs.table]
    exact readField_of_entry ((hs.entry_eq _).trans he) field

theorem answersAlike_clearTable : AnswersAlike s (·.clearTable.respond .ok) :=
  ⟨[], .ok, fun _ _ => rfl⟩

theorem answersAlike_version : AnswersAlike s fun s' => s'.respond (.value (s'.cfg.versionId.setWidth 64)) := by
  refine ⟨s.table, .value (s.cfg.versionId.setWidth 64), fun s' hs => ?_⟩
  rw [← hs.versionId, ← hs.table]

theorem answersAlike_groupMask (g : Nat) :
    AnswersAlike s fun s' => s'.respond (.value ((s'.validWord g).setWidth 64)) := by
  refine ⟨s.table, .value ((s.validWord g).setWidth 64), fun s' hs => ?_⟩
  rw [← hs.validWord_eq, ← hs.table]

end Alike

/-- R90: the table and the response that a command writes are chosen by what it reads, and it writes no more. -/
theorem exec_command {i : Instr} (hport : i.port = .command) (s : State) :
    ∃ run, (∀ s', exec i s' = .next (run s')) ∧ AnswersAlike s run := by
  cases i with
  | install idx f o c => exact ⟨_, fun _ => rfl, answersAlike_install s idx f o c⟩
  | enable idx => exact ⟨_, fun _ => rfl, answersAlike_setEnabled s idx true⟩
  | disable idx => exact ⟨_, fun _ => rfl, answersAlike_setEnabled s idx false⟩
  | flush => exact ⟨_, fun _ => rfl, answersAlike_clearTable s⟩
  | readFrom idx => exact ⟨_, fun _ => rfl, answersAlike_readField s idx Slot.pfrom⟩
  | readTo idx => exact ⟨_, fun _ => rfl, answersAlike_readField s idx Slot.pto⟩
  | version => exact ⟨_, fun _ => rfl, answersAlike_version s⟩
  | groupMask g => exact ⟨_, fun _ => rfl, answersAlike_groupMask s g.toNat⟩
  | encodeFrom | encodeTo | decodeSizeClass | decodeFromOffset | decodeToOffset | translate =>
    exact absurd hport (by simp [Instr.port])

/-- Settles O26: the states that agree get the one table and the one response. -/
theorem commandsReadTableAndConstantsOnly : Obligations.CommandsReadTableAndConstantsOnly := by
  intro i s s' t t' hport htable hcapacity hspan hversion h h'
  obtain ⟨run, hexec, T, r, hrun⟩ := exec_command hport s
  have hsame : SameForCommands s s' := ⟨htable.symm, hcapacity.symm, hspan.symm, hversion.symm⟩
  obtain rfl : run s = t := Host.Outcome.next.inj ((hexec s).symm.trans h)
  obtain rfl : run s' = t' := Host.Outcome.next.inj ((hexec s').symm.trans h')
  rw [hrun s (.refl s), hrun s' hsame]
  exact ⟨rfl, rfl, ⟨r, rfl⟩, rfl⟩

/-! What an operation can change: beside the table, and in it (R99) -/

section Effect
variable {i : Instr} {s t : State} {j : Nat}

theorem touches_of_not_command (hport : i.port ≠ .command) (j : Nat) : touches i j = false := by
  cases i with
  | install | enable | disable | flush | readFrom | readTo | version | groupMask => exact absurd rfl hport
  | _ => rfl

/-- Beside the table an operation writes its answer and the count of choices alone. -/
theorem exec_frame (h : exec i s = .next t) :
    t = { s with table := t.table, output := t.output, choices := t.choices } := by
  by_cases hport : i.port = .command
  · obtain ⟨run, hexec, T, r, hrun⟩ := exec_command hport s
    obtain rfl : run s = t := Host.Outcome.next.inj ((hexec s).symm.trans h)
    rw [hrun s (.refl s)]
    rfl
  · rw [exec_frame_of_untouched (touches_of_not_command hport) h]

/-- From `s` to `t` at most slot `k` is written, and that only with the response OK. -/
def WritesAtMost (k : Nat) (s t : State) : Prop :=
  t.table = s.table ∨ t.output = some (.response .ok) ∧ ∃ e, t.table = Keyed.put k e s.table

theorem writesAtMost_install (s : State) (idx : Index) (f o : Addr) (c : SizeClass) :
    WritesAtMost idx.toNat s (s.install idx f o c) := by
  obtain ⟨_, h⟩ | ⟨_, _, h⟩ | ⟨_, _, _, h⟩ := install_cases s idx f o c <;> rw [h]
  · exact .inl rfl
  · exact .inl rfl
  · exact .inr ⟨rfl, _, rfl⟩

theorem writesAtMost_setEnabled (s : State) (idx : Index) (b : Bool) :
    WritesAtMost idx.toNat s (s.setEnabled idx b) := by
  obtain ⟨_, h⟩ | ⟨_, _, h⟩ := setEnabled_cases s idx b <;> rw [h]
  · exact .inl rfl
  · exact .inr ⟨rfl, _, rfl⟩

theorem entry_of_writesAtMost {k : Nat} (h : WritesAtMost k s t) (hcfg : t.cfg = s.cfg)
    (hj : k ≠ j ∨ t.output ≠ some (.response .ok)) : t.entry j = s.entry j := by
  rw [State.entry, State.entry, hcfg]
  obtain htable | ⟨hok, e, htable⟩ := h
  · rw [htable]
  · have hne : k ≠ j := hj.resolve_right (not_not_intro hok)
    rw [htable, Keyed.find_put, if_neg hne.symm]

/-- R99: an operation leaves every slot it does not touch, and every slot if it does not answer OK. -/
theorem entry_exec_of_untouched (h : exec i s = .next t)
    (hj : touches i j = false ∨ t.output ≠ some (.response .ok)) : t.entry j = s.entry j := by
  have hcfg := exec_cfg h
  cases i with
  | install idx f o c =>
    cases h
    exact entry_of_writesAtMost (writesAtMost_install s idx f o c) hcfg (hj.imp_left of_decide_eq_false)
  | enable idx =>
    cases h
    exact entry_of_writesAtMost (writesAtMost_setEnabled s idx true) hcfg (hj.imp_left of_decide_eq_false)
  | disable idx =>
    cases h
    exact entry_of_writesAtMost (writesAtMost_setEnabled s idx false) hcfg (hj.imp_left of_decide_eq_false)
  | flush =>
    cases h
    exact absurd rfl (hj.resolve_left Bool.noConfusion)
  | _ =>
    rw [exec_frame_of_untouched (fun _ => rfl) h]
    rfl

end Effect

/-- Settles O22: a validity bit and a redirection are computed from their slot and the configuration. -/
theorem frameOfEveryOperation : Obligations.FrameOfEveryOperation := by
  intro i s t h
  have hframe := exec_frame h
  refine ⟨fun j hj => ?_, ?_, fun a => ?_, exec_cfg h, ?_⟩
  · have hentry := entry_exec_of_untouched h hj
    exact ⟨hentry, validBit_congr hentry, redirects_congr (exec_cfg h) hentry⟩
  · rintro rfl j
    cases h
    exact entry_clearTable s j
  · rw [hframe]
    rfl
  · rw [hframe]

/-! What a run keeps (R98) -/

/-- Along a run of operations that all meet `Q`, with no successful `INSTALL` at the index, a property that each such
operation keeps is kept. -/
theorem execAll_keeps {P : State → Prop} {Q : Instr → Prop} {idx : Index}
    (hkeeps : ∀ {i : Instr} {s t : State}, exec i s = .next t → Q i →
      (∀ f o c, i = .install idx f o c → t.output ≠ some (.response .ok)) → P s → P t) :
    ∀ {run : List Instr} {s u : State}, (∀ i ∈ run, Q i) → NotReinstalled idx run s →
      execAll run s = .next u → P s → P u := by
  intro run
  induction run with
  | nil =>
    intro s u _ _ h hs
    cases h
    exact hs
  | cons i rest ih =>
    intro s u hall hnot h hs
    obtain ⟨t, ht⟩ := exec_completes i s
    obtain ⟨hfails, hrest⟩ := hnot t ht
    obtain ⟨hi, hall⟩ := List.forall_mem_cons.1 hall
    rw [execAll_cons_of_exec ht] at h
    exact ih hall hrest h (hkeeps ht hi hfails hs)

/-- An entry with these packed values is present at the index, enabled or not. -/
def State.holdsPacked (s : State) (k : Nat) (p q : Addr) : Prop :=
  ∃ b, s.entry k = some { pfrom := p, pto := q, enabled := b }

theorem holdsPacked_setEnabled {s : State} {k : Nat} {p q : Addr} (hs : s.holdsPacked k p q) (idx : Index)
    (b : Bool) : (s.setEnabled idx b).holdsPacked k p q := by
  obtain ⟨b', he⟩ := hs
  by_cases hk : idx.toNat = k
  · exact ⟨b, by rw [entry_setEnabled, if_pos hk, he]; rfl⟩
  · exact ⟨b', by rw [entry_setEnabled, if_neg hk, he]⟩

/-- R98, one operation: only `FLUSH` and a successful `INSTALL` at the index take packed values away. -/
theorem holdsPacked_exec {i : Instr} {s t : State} {idx : Index} {p q : Addr} (h : exec i s = .next t)
    (hflush : i ≠ .flush) (hnot : ∀ f o c, i = .install idx f o c → t.output ≠ some (.response .ok))
    (hs : s.holdsPacked idx.toNat p q) : t.holdsPacked idx.toNat p q := by
  have hkept (hj : touches i idx.toNat = false ∨ t.output ≠ some (.response .ok)) :
      t.holdsPacked idx.toNat p q := by
    rwa [State.holdsPacked, entry_exec_of_untouched h hj]
  cases i with
  | install j f o c =>
    by_cases hj : j = idx
    · exact hkept (.inr (hnot f o c (by rw [hj])))
    · exact hkept (.inl (decide_eq_false (mt BitVec.eq_of_toNat_eq hj)))
  | enable j =>
    cases h
    exact holdsPacked_setEnabled hs j true
  | disable j =>
    cases h
    exact holdsPacked_setEnabled hs j false
  | flush => exact absurd rfl hflush
  | _ => exact hkept (.inl rfl)

/-- Settles O21: the packed values that `INSTALL` stored are held to the end of the run, and unpack to its operands. -/
theorem installedValuesReadBack : Obligations.InstalledValuesReadBack := by
  intro s t u idx f o c run hidx hf ho h hflush hnot hrun
  have hf : aligned s.cfg c f = true := (aligned_iff _ _ _).2 hf
  have ho : aligned s.cfg c o = true := (aligned_iff _ _ _).2 ho
  have hstored : t.holdsPacked idx.toNat (f ||| c.setWidth 64) o := by
    cases h
    refine ⟨false, ?_⟩
    rw [entry_install hidx, if_pos ⟨rfl, hf, ho⟩]
    rfl
  obtain ⟨b, he⟩ := execAll_keeps (P := (State.holdsPacked · idx.toNat (f ||| c.setWidth 64) o)) holdsPacked_exec
    hflush hnot hrun hstored
  obtain ⟨hreadFrom, hreadTo⟩ := readsReturnStoredValues u idx _ he
  have hlow := aligned_mod hf
  refine ⟨_, _, hreadFrom, hreadTo, ?_, ?_, exec_decodeToOffset u o⟩
  · rw [exec_decodeFromOffset, fromOffsetOf_pack hlow]
    rfl
  · rw [exec_decodeSizeClass, scField_pack hlow]
    rfl

end Sys2Proof.Machine
end

section
/-! PROOFS of the statements of 42_validity.md: a validity bit from its slot, the words and the vector bit by bit,
what a successful command does to its own slot, and the count of the set bits. -/

namespace Sys2Proof.Machine

/-! A validity bit (R100, R101), and the redirection that goes with it (20_memory.md R49) -/

section Bit
variable {s : State} {i : Nat}

theorem validBit_eq_true_iff : s.validBit i = true ↔ ∃ e, s.entry i = some e ∧ e.enabled = true := by
  cases h : s.entry i <;> simp [State.validBit, h]

theorem validBit_of_entry {e : Slot} (h : s.entry i = some e) : s.validBit i = e.enabled := by
  rw [State.validBit, h]

/-- R101: an index with no slot has the bit 0. -/
theorem lt_capacity_of_validBit (h : s.validBit i = true) : i < s.cfg.capacity := by
  obtain ⟨e, he, _⟩ := validBit_eq_true_iff.1 h
  exact entry_lt he

/-- 20_memory.md R49: a disabled entry has the bit 0 and redirects nothing. -/
theorem silent_of_disabled_entry {e : Slot} (he : s.entry i = some e) (hdisabled : e.enabled = false) :
    s.validBit i = false ∧ ∀ a, s.redirects i a = false := by
  refine ⟨(validBit_of_entry he).trans hdisabled, fun a => ?_⟩
  rw [redirects_of_entry he, hdisabled, Bool.false_and]

end Bit

/-! The groups (R101) and the vector of all words (R102) -/

/-- 00_scope.md R5: the groups cover the slots. -/
theorem capacity_le_ngroups (cfg : Config) : cfg.capacity ≤ 32 * cfg.ngroups := by
  simp only [Config.ngroups, Config.groupSize]
  omega

/-- The vector has a wire for every index that can have its bit set. -/
theorem getLsbD_validVector (s : State) (i : Nat) : s.validVector.getLsbD i = s.validBit i := by
  rw [State.validVector, getLsbD_packBits]
  cases hbit : s.validBit i with
  | false => exact Bool.and_false _
  | true =>
    have hi : i < 32 * s.cfg.ngroups := (lt_capacity_of_validBit hbit).trans_le (capacity_le_ngroups s.cfg)
    simp [hi]

theorem getLsbD_validWord_of_lt (s : State) (g : Nat) {k : Nat} (hk : k < 32) :
    (s.validWord g).getLsbD k = s.validBit (32 * g + k) := by
  rw [getLsbD_validWord, decide_eq_true hk, Bool.true_and]

theorem getLsbD_validWord_of_capacity_le {s : State} {g k : Nat} (h : s.cfg.capacity ≤ 32 * g + k) :
    (s.validWord g).getLsbD k = false := by
  have hbit : s.validBit (32 * g + k) = false :=
    Bool.eq_false_iff.2 fun hset => Nat.not_lt.2 h (lt_capacity_of_validBit hset)
  rw [getLsbD_validWord, hbit, Bool.and_false]

/-- R101: a group past the last holds no slot. -/
theorem validWord_of_ngroups_le {s : State} {g : Nat} (h : s.cfg.ngroups ≤ g) : s.validWord g = 0 := by
  refine BitVec.eq_of_getLsbD_eq fun k _ => ?_
  have hcover := capacity_le_ngroups s.cfg
  rw [getLsbD_validWord_of_capacity_le (by omega)]
  exact BitVec.getLsbD_zero.symm

/-- R100: `GROUP_MASK` answers with the word that is driven for the group. -/
theorem exec_groupMask (g : Index) (s : State) :
    exec (.groupMask g) s = .next (s.respond (.value ((s.validWord g.toNat).setWidth 64))) := rfl

/-- Settles O28: the word is the one driven for the group, whose bits are the validity bits. -/
theorem groupMaskReportsEnabledEntries : Obligations.GroupMaskReportsEnabledEntries := by
  intro s g
  refine ⟨s.validWord g.toNat, exec_groupMask g s, fun k hk => ?_, fun hempty => ?_⟩
  · rw [getLsbD_validWord_of_lt s g.toNat hk]
    exact validBit_eq_true_iff
  · exact validWord_of_no_entry (entry_of_empty hempty) g.toNat

/-- Settles O29: the groups below `NGROUPS` cover the slots. -/
theorem indicesWithNoSlotReadZero : Obligations.IndicesWithNoSlotReadZero := by
  refine fun s g => ⟨fun k hk => getLsbD_validWord_of_capacity_le hk, fun hg => ?_⟩
  rw [exec_groupMask, validWord_of_ngroups_le hg]
  rfl

/-- Settles O30: a bit of the vector and a bit of a word are the validity bit of one index. -/
theorem validVectorConcatenatesWords : Obligations.ValidVectorConcatenatesWords := by
  refine fun s => ⟨fun g => exec_groupMask g s, fun g k _ hk => ?_, fun i => ?_⟩
  · rw [getLsbD_validVector, getLsbD_validWord_of_lt s g hk]
  · rw [getLsbD_validVector]
    exact validBit_eq_true_iff

/-! What a successful command leaves in its own slot (R104) -/

section Success
variable {s : State} {idx : Index}

theorem entry_install_of_ok {f o : Addr} {c : SizeClass}
    (hok : (s.install idx f o c).output = some (.response .ok)) :
    (s.install idx f o c).entry idx.toNat = some (newEntry f o c) := by
  obtain ⟨_, h⟩ | ⟨_, _, h⟩ | ⟨hidx, hf, ho, _⟩ := install_cases s idx f o c
  · simp [h] at hok
  · simp [h] at hok
  · rw [entry_install hidx, if_pos ⟨rfl, hf, ho⟩]

theorem entry_setEnabled_of_ok {b : Bool} (hok : (s.setEnabled idx b).output = some (.response .ok)) :
    ∃ e, s.entry idx.toNat = some e ∧ (s.setEnabled idx b).entry idx.toNat = some { e with enabled := b } := by
  obtain ⟨_, h⟩ | ⟨e, he, _⟩ := setEnabled_cases s idx b
  · simp [h] at hok
  · refine ⟨e, he, ?_⟩
    rw [entry_setEnabled, if_pos rfl, he]
    rfl

end Success

/-- Settles O31: by the entry that each command leaves in its slot. -/
theorem mutationsMoveBitAndRedirection : Obligations.MutationsMoveBitAndRedirection := by
  refine fun s t idx => ⟨fun f o c h hok => ?_, fun h hok => ?_, fun h hok => ?_, fun h j => ?_⟩
  · cases h
    exact silent_of_disabled_entry (entry_install_of_ok hok) rfl
  · cases h
    obtain ⟨e, he, hstored⟩ := entry_setEnabled_of_ok hok
    refine ⟨validBit_of_entry hstored, e, he, fun a => ?_⟩
    rw [redirects_of_entry hstored, setEnabled_cfg]
    exact Bool.true_and _
  · cases h
    obtain ⟨e, _, hstored⟩ := entry_setEnabled_of_ok hok
    exact silent_of_disabled_entry hstored rfl
  · cases h
    exact ⟨validBit_clearTable s j, redirects_clearTable s j⟩

/-! Counting the set bits group by group -/

theorem countBelow_congr {p q : Nat → Bool} {n : Nat} (h : ∀ k < n, p k = q k) : countBelow p n = countBelow q n :=
  congrArg List.length (List.filter_congr fun k hk => h k (List.mem_range.1 hk))

theorem countBelow_add (p : Nat → Bool) (m n : Nat) :
    countBelow p (m + n) = countBelow p m + countBelow (fun k => p (m + k)) n := by
  simp [countBelow, List.range_add, List.filter_map, Function.comp_def]

theorem sum_countBelow_groups (p : Nat → Bool) (w n : Nat) :
    ((List.range n).map fun g => countBelow (fun k => p (w * g + k)) w).sum = countBelow p (w * n) := by
  induction n with
  | zero => rfl
  | succ n ih => simp [List.range_succ, ih, Nat.mul_succ, countBelow_add]

theorem sum_set_bits (s : State) (n : Nat) :
    ((List.range n).map fun g => countBelow (s.validWord g).getLsbD 32).sum = countBelow s.validBit (32 * n) := by
  have hword (g : Nat) : countBelow (s.validWord g).getLsbD 32 = countBelow (fun k => s.validBit (32 * g + k)) 32 :=
    countBelow_congr fun _ hk => getLsbD_validWord_of_lt s g hk
  simp only [hword]
  exact sum_countBelow_groups s.validBit 32 n

/-! The table in form lists each present entry once (10_state.md R20) -/

section Listed
variable {α : Type} {l : List (Nat × α)}

theorem Keyed.rising_iff_pairwise : Keyed.rising l = true ↔ (l.map Prod.fst).Pairwise (· < ·) := by
  induction l with
  | nil => simp [Keyed.rising]
  | cons p rest ih => simp [Keyed.rising_cons, ih]

theorem Keyed.find_eq_some_iff (hl : Keyed.rising l = true) {k : Nat} {v : α} :
    Keyed.find k l = some v ↔ (k, v) ∈ l := by
  refine ⟨Keyed.mem_of_find, fun hmem => ?_⟩
  induction l with
  | nil => simp at hmem
  | cons p rest ih =>
    obtain ⟨j, w⟩ := p
    obtain ⟨hleast, hrest⟩ := (Keyed.rising_cons _ _).1 hl
    obtain heq | hmem := List.mem_cons.1 hmem
    · cases heq
      simp [Keyed.find]
    · have hne : k ≠ j := (hleast _ hmem).ne'
      rw [Keyed.find, if_neg hne]
      exact ih hrest hmem

end Listed

section Count
variable {s : State} (hs : s.wf = true)
include hs

theorem entry_eq_some_iff_mem_table {i : Nat} {e : Slot} : s.entry i = some e ↔ (i, e) ∈ s.table := by
  obtain ⟨_, htable, _⟩ := (State.wf_iff s).1 hs
  obtain ⟨hrising, hlisted⟩ := (Table.wf_iff _ _).1 htable
  rw [← Keyed.find_eq_some_iff hrising]
  refine ⟨fun he => ?_, fun hfind => ?_⟩
  · rwa [State.entry, if_pos (entry_lt he)] at he
  · rwa [State.entry, if_pos (hlisted _ (Keyed.mem_of_find hfind)).1]

/-- R104: the set bits stand at the indices of the enabled entries, each of which is listed once. -/
theorem set_bits_perm_enabled_indices {n : Nat} (hn : s.cfg.capacity ≤ n) :
    ((List.range n).filter s.validBit).Perm ((s.table.filter fun p => p.2.enabled).map Prod.fst) := by
  obtain ⟨_, htable, _⟩ := (State.wf_iff s).1 hs
  obtain ⟨hrising, _⟩ := (Table.wf_iff _ _).1 htable
  have hindices : (s.table.map Prod.fst).Nodup := (Keyed.rising_iff_pairwise.1 hrising).imp Nat.ne_of_lt
  refine (List.perm_ext_iff_of_nodup (List.nodup_range.filter _) (hindices.sublist (List.filter_sublist.map _))).2
    fun i => ?_
  calc i ∈ (List.range n).filter s.validBit
      _ ↔ s.validBit i = true := by
        rw [List.mem_filter, List.mem_range]
        exact and_iff_right_of_imp fun hbit => (lt_capacity_of_validBit hbit).trans_le hn
      _ ↔ ∃ e, (i, e) ∈ s.table ∧ e.enabled = true := by
        simp only [validBit_eq_true_iff, entry_eq_some_iff_mem_table hs]
      _ ↔ i ∈ (s.table.filter fun p => p.2.enabled).map Prod.fst := by simp

end Count

/-- Settles O32: the set bits of all words are those of the indices below `32 * NGROUPS`, which cover the slots. -/
theorem setBitsCountEnabledEntries : Obligations.SetBitsCountEnabledEntries := by
  intro s hs
  rw [sum_set_bits, countBelow, (set_bits_perm_enabled_indices hs (capacity_le_ngroups s.cfg)).length_eq,
    List.length_map]

end Sys2Proof.Machine
end

section
/-! PROOFS of the statements of 60_exceptions.md: a step always completes, the one table of which operation answers
which error in which state, and on which port an operation answers. -/

namespace Sys2Proof.Machine

/-! Liveness (R118) -/

/-- R118: whatever the next input is, the step completes. -/
theorem step_completes (s : State) : ∃ t, step s = .next t := by
  cases hinputs : s.inputs with
  | nil => exact ⟨_, step_of_nil hinputs⟩
  | cons input rest =>
    cases input with
    | request r =>
      rw [step_of_request hinputs]
      exact exec_completes (decode r) _
    | busRead a n => exact ⟨_, step_of_busRead hinputs⟩
    | busWrite a bytes => exact ⟨_, step_of_busWrite hinputs⟩
    | reset => exact ⟨_, step_of_reset hinputs⟩

/-- Settles O5: steps and operations complete from every state, the one after an error among them. -/
theorem blockNeverStops : Obligations.BlockNeverStops := by
  intro s
  obtain ⟨t, ht⟩ := step_completes s
  exact ⟨t, ht, fun i => exec_completes i t⟩

/-! The causes of the errors (R111, R113, R114) -/

/-- The error table of section 1, with the order of checks of R115: operation `i` has cause to answer error `k` in
state `s`. -/
inductive Raises (s : State) : Instr → ErrorKind → Prop
  /-- R113. -/
  | indexOutOfRange {idx : Index} {f o : Addr} {c : SizeClass} (hidx : s.cfg.capacity ≤ idx.toNat) :
      Raises s (.install idx f o c) .indexOutOfRange
  /-- R111. -/
  | alignmentError {idx : Index} {f o : Addr} {c : SizeClass} (hidx : idx.toNat < s.cfg.capacity)
      (hmis : f.toNat % gran s.cfg c ≠ 0 ∨ o.toNat % gran s.cfg c ≠ 0) :
      Raises s (.install idx f o c) .alignmentError
  /-- R114. -/
  | notInstalled {idx : Index} {i : Instr} (hi : i ∈ [Instr.enable idx, .disable idx, .readFrom idx, .readTo idx])
      (habsent : s.entry idx.toNat = none) : Raises s i .notInstalled

theorem not_aligned_iff (cfg : Config) (c : SizeClass) (x : Addr) :
    aligned cfg c x = false ↔ x.toNat % gran cfg c ≠ 0 := by
  rw [← Bool.not_eq_true, aligned_iff]

section Errors
variable {s t : State} {i : Instr} {idx : Index} {k : ErrorKind}

theorem raises_of_install {f o : Addr} {c : SizeClass}
    (herr : (s.install idx f o c).output = some (.response (.error k))) : Raises s (.install idx f o c) k := by
  obtain ⟨hidx, h⟩ | ⟨hidx, hmis, h⟩ | ⟨_, _, _, h⟩ := install_cases s idx f o c <;> rw [h] at herr <;> cases herr
  · exact .indexOutOfRange hidx
  · rw [not_aligned_iff, not_aligned_iff] at hmis
    exact .alignmentError hidx hmis

theorem raises_of_setEnabled {b : Bool}
    (hi : i ∈ [Instr.enable idx, .disable idx, .readFrom idx, .readTo idx])
    (herr : (s.setEnabled idx b).output = some (.response (.error k))) : Raises s i k := by
  obtain ⟨habsent, h⟩ | ⟨_, _, h⟩ := setEnabled_cases s idx b <;> rw [h] at herr <;> cases herr
  exact .notInstalled hi habsent

theorem raises_of_readField {field : Slot → Addr}
    (hi : i ∈ [Instr.enable idx, .disable idx, .readFrom idx, .readTo idx])
    (herr : (s.readField idx field).output = some (.response (.error k))) : Raises s i k := by
  obtain ⟨habsent, h⟩ | ⟨_, _, h⟩ := readField_cases s idx field <;> rw [h] at herr <;> cases herr
  exact .notInstalled hi habsent

/-- No operation answers an error without cause. -/
theorem raises_of_error (h : exec i s = .next t) (herr : t.output = some (.response (.error k))) :
    Raises s i k := by
  cases i with
  | install idx f o c =>
    cases h
    exact raises_of_install herr
  | enable idx =>
    cases h
    exact raises_of_setEnabled (idx := idx) (by simp) herr
  | disable idx =>
    cases h
    exact raises_of_setEnabled (idx := idx) (by simp) herr
  | readFrom idx =>
    cases h
    exact raises_of_readField (idx := idx) (by simp) herr
  | readTo idx =>
    cases h
    exact raises_of_readField (idx := idx) (by simp) herr
  | _ =>
    cases h
    cases herr

/-- R116: an operation with cause to answer an error does that and nothing else. -/
theorem exec_of_raises (h : Raises s i k) : exec i s = .next (s.raise k) := by
  cases h with
  | indexOutOfRange hidx => exact congrArg _ (install_of_capacity_le hidx _ _ _)
  | alignmentError hidx hmis =>
    rw [← not_aligned_iff, ← not_aligned_iff] at hmis
    exact congrArg _ (install_of_not_aligned hidx hmis)
  | notInstalled hi habsent => exact exec_of_absent habsent hi

/-- R110: an operation answers an error exactly if it has cause to. -/
theorem output_error_iff_raises (h : exec i s = .next t) :
    t.output = some (.response (.error k)) ↔ Raises s i k := by
  refine ⟨raises_of_error h, fun hraises => ?_⟩
  obtain rfl : s.raise k = t := Host.Outcome.next.inj ((exec_of_raises hraises).symm.trans h)
  rfl

theorem raises_install_alignmentError_iff {f o : Addr} {c : SizeClass} :
    Raises s (.install idx f o c) .alignmentError ↔
      idx.toNat < s.cfg.capacity ∧ (f.toNat % gran s.cfg c ≠ 0 ∨ o.toNat % gran s.cfg c ≠ 0) := by
  constructor
  · rintro (_ | ⟨hidx, hmis⟩ | _)
    exact ⟨hidx, hmis⟩
  · rintro ⟨hidx, hmis⟩
    exact .alignmentError hidx hmis

/-- The command that needs an entry names its index. -/
theorem index_eq_of_needs_entry {idx' : Index} (hi : i ∈ [Instr.enable idx, .disable idx, .readFrom idx, .readTo idx])
    (hi' : i ∈ [Instr.enable idx', .disable idx', .readFrom idx', .readTo idx']) : idx = idx' := by
  simp only [List.mem_cons, List.not_mem_nil, or_false] at hi
  obtain rfl | rfl | rfl | rfl := hi <;> simpa using hi'

/-- R114 (decision D10): an index at or above `CAPACITY` has no entry. -/
theorem entry_of_capacity_le {j : Nat} (h : s.cfg.capacity ≤ j) : s.entry j = none := by
  rw [State.entry, if_neg (Nat.not_lt.2 h)]

end Errors

/-- Settles O13: the row of `IndexOutOfRange` in the error table. -/
theorem indexOutOfRangeExactly : Obligations.IndexOutOfRangeExactly := by
  refine ⟨fun s idx f o c hidx => exec_of_raises (.indexOutOfRange hidx), fun i s t h herr => ?_⟩
  cases raises_of_error h herr with
  | indexOutOfRange hidx => exact ⟨_, _, _, _, rfl, hidx⟩

/-- Settles O17: the row of `NotInstalled` in the error table. -/
theorem notInstalledExactly : Obligations.NotInstalledExactly := by
  refine ⟨fun s idx i hi => ⟨fun habsent => exec_of_absent habsent hi, entry_of_capacity_le, fun t h herr => ?_⟩,
    fun i s t h herr => ?_⟩
  · cases raises_of_error h herr with
    | notInstalled hi' habsent =>
      rw [index_eq_of_needs_entry hi hi']
      exact habsent
  · cases raises_of_error h herr with
    | notInstalled hi _ => exact ⟨_, hi⟩

/-- Settles O24: the state is that of `State.raise`, and no operation reads the recorded output. -/
theorem errorsArePreciseAndNotSticky : Obligations.ErrorsArePreciseAndNotSticky := by
  intro i s t k h herr
  obtain rfl : s.raise k = t := Host.Outcome.next.inj ((exec_of_raises (raises_of_error h herr)).symm.trans h)
  exact ⟨rfl, fun j => exec_with_output s j _⟩

/-! The port on which an operation answers (30_encoding.md R63, R71, R72) -/

/-- The port group that drives an output; the bus observer's outputs are on none. -/
def Output.port : Output → Option Port
  | .response _ => some .command
  | .packedFrom _ => some .encodeFrom
  | .packedTo _ => some .encodeTo
  | .sizeClass _ => some .decodeSizeClass
  | .fromOffset _ => some .decodeFromOffset
  | .toOffset _ => some .decodeToOffset
  | .translated _ => some .translate
  | .busData _ => none
  | .busDone => none

/-- An operation answers on the port group it was presented on. -/
theorem port_of_output {i : Instr} {s t : State} {out : Output} (h : exec i s = .next t)
    (hout : t.output = some out) : out.port = some i.port := by
  by_cases hport : i.port = .command
  · obtain ⟨run, hexec, T, r, hrun⟩ := exec_command hport s
    obtain rfl : run s = t := Host.Outcome.next.inj ((hexec s).symm.trans h)
    rw [hrun s (.refl s)] at hout
    cases hout
    rw [hport]
    rfl
  · cases i with
    | install | enable | disable | flush | readFrom | readTo | version | groupMask => exact absurd rfl hport
    | _ =>
      cases h
      cases hout
      rfl

theorem eq_install_of_raises_alignmentError {s : State} {i : Instr} (h : Raises s i .alignmentError) :
    ∃ idx f o c, i = .install idx f o c := by
  cases h with
  | alignmentError => exact ⟨_, _, _, _, rfl⟩

theorem eq_encodeFrom_of_port {i : Instr} (h : some Port.encodeFrom = some i.port) : ∃ f c, i = .encodeFrom f c := by
  cases i with
  | encodeFrom f c => exact ⟨f, c, rfl⟩
  | _ => cases h

theorem eq_encodeTo_of_port {i : Instr} (h : some Port.encodeTo = some i.port) : ∃ o, i = .encodeTo o := by
  cases i with
  | encodeTo o => exact ⟨o, rfl⟩
  | _ => cases h

/-- R111: `INSTALL` rounds no offset. A slot holds what it held before, or the operands as they were given. -/
theorem entry_install_eq_or (s : State) (idx : Index) (f o : Addr) (c : SizeClass) (j : Nat) :
    (s.install idx f o c).entry j = s.entry j ∨
      ((s.install idx f o c).entry j = some (newEntry f o c) ∧
        f.toNat % gran s.cfg c = 0 ∧ o.toNat % gran s.cfg c = 0) := by
  obtain ⟨_, h⟩ | ⟨_, _, h⟩ | ⟨hidx, hf, ho, h⟩ := install_cases s idx f o c <;> rw [h]
  · exact .inl rfl
  · exact .inl rfl
  · rw [entry_respond, entry_setEntry _ _ _ _ hidx]
    split
    · exact .inr ⟨rfl, (aligned_iff _ _ _).1 hf, (aligned_iff _ _ _).1 ho⟩
    · exact .inl rfl

/-- Settles O14: the row of `AlignmentError` in the error table, the checks of the two packers, and the port on which
each of the three answers. -/
theorem alignmentErrorExactly : Obligations.AlignmentErrorExactly := by
  refine ⟨fun s t idx f o c h => ⟨?_, ?_⟩, fun s t f c h => ?_, fun s t o h => ?_, fun i s t h =>
    ⟨fun herr => ?_, fun hout => ?_, fun hout => ?_⟩⟩
  · rw [output_error_iff_raises h, raises_install_alignmentError_iff]
  · cases h
    exact entry_install_eq_or s idx f o c
  · cases h
    rw [emit_output, Option.some_inj, Output.packedFrom.injEq, packFrom_eq_alignmentError_iff, Ne, Ne, low_bits_clear]
  · cases h
    rw [emit_output, Option.some_inj, Output.packedTo.injEq, packTo_eq_alignmentError_iff]
  · exact eq_install_of_raises_alignmentError (raises_of_error h herr)
  · exact eq_encodeFrom_of_port (port_of_output h hout)
  · exact eq_encodeTo_of_port (port_of_output h hout)

end Sys2Proof.Machine
end

section
/-! PROOFS of the statements of 70_reset_and_hazards.md: an absent slot through a run, and the scenario of `INSTALL`,
`ENABLE` and `DISABLE` at one byte of a source range. -/

namespace Sys2Proof.Machine

/-! An absent slot (R138) -/

/-- R138, one operation: only a successful `INSTALL` at the index fills an absent slot. -/
theorem absent_exec {i : Instr} {s t : State} {idx : Index} (h : exec i s = .next t)
    (hnot : ∀ f o c, i = .install idx f o c → t.output ≠ some (.response .ok))
    (habsent : s.entry idx.toNat = none) : t.entry idx.toNat = none := by
  have hkept (hj : touches i idx.toNat = false ∨ t.output ≠ some (.response .ok)) : t.entry idx.toNat = none :=
    (entry_exec_of_untouched h hj).trans habsent
  cases i with
  | install j f o c =>
    by_cases hj : j = idx
    · exact hkept (.inr (hnot f o c (by rw [hj])))
    · exact hkept (.inl (decide_eq_false (mt BitVec.eq_of_toNat_eq hj)))
  | enable j =>
    cases h
    simp [entry_setEnabled, habsent]
  | disable j =>
    cases h
    simp [entry_setEnabled, habsent]
  | flush =>
    cases h
    exact entry_clearTable s _
  | _ => exact hkept (.inl rfl)

/-- Settles O20: `FLUSH` leaves the slot absent, the run keeps it so, and the commands that need an entry find none. -/
theorem flushedEntryMustBeReinstalled : Obligations.FlushedEntryMustBeReinstalled := by
  intro s t u idx run h hnot hrun i hi
  have hflushed : t.entry idx.toNat = none := by
    cases h
    exact entry_clearTable s _
  have habsent : u.entry idx.toNat = none :=
    execAll_keeps (P := (State.entry · idx.toNat = none)) (Q := fun _ => True)
      (fun hexec _ hnot => absent_exec hexec hnot) (fun _ _ => trivial) hnot hrun hflushed
  exact exec_of_absent habsent hi

/-! What an installed entry catches (20_memory.md R42, R43) -/

section NewEntry
variable {cfg : Config} {f : Addr} {c : SizeClass}

/-- A class that went into a packed from value is no reserved one, and selects its own span. -/
theorem spanOfField_pack (hf : f.toNat % 16 = 0) (c : SizeClass) :
    spanOfField cfg (scField (f ||| c.setWidth 64)) = span cfg c := by
  have hlegal : (scField (f ||| c.setWidth 64)).getLsbD 3 = false := by
    rw [scField_pack hf, BitVec.getLsbD_setWidth, BitVec.getLsbD_of_ge c 3 (by decide), Bool.and_false]
  rw [spanOfField, hlegal, if_neg Bool.false_ne_true, sizeClass_pack hf]

/-- Byte `k` of the source range lies `k` above its start, modulo 2^64 (decision D15). -/
theorem sourceDistance_newEntry (hf : f.toNat % 16 = 0) (o k : Addr) :
    sourceDistance cfg (newEntry f o c) (cfg.fromBase + f + k) = k := by
  rw [sourceDistance, newEntry, fromOffsetOf_pack hf]
  bv_omega

theorem inSource_newEntry (hf : f.toNat % 16 = 0) (o : Addr) {k : Addr} (hk : k.toNat < span cfg c) :
    inSource cfg (newEntry f o c) (cfg.fromBase + f + k) = true := by
  rw [inSource, sourceDistance_newEntry hf, newEntry, spanOfField_pack hf]
  exact decide_eq_true hk

theorem destination_newEntry (hf : f.toNat % 16 = 0) (o k : Addr) :
    destination cfg (newEntry f o c) (cfg.fromBase + f + k) = cfg.toBase + o + k := by
  rw [destination, sourceDistance_newEntry hf]
  rfl

end NewEntry

/-! The scenario of R133: one slot may catch the address, and no other does (R139) -/

/-- The slot holds the entry, and no other slot's redirection catches the address. -/
def State.holdsAlone (s : State) (i : Nat) (e : Slot) (a : Addr) : Prop :=
  s.entry i = some e ∧ ∀ j, j ≠ i → s.redirects j a = false

section Alone
variable {s t : State} {a : Addr} {e : Slot}

/-- R99: the redirection of a slot that an operation does not touch. -/
theorem redirects_exec_of_untouched {i : Instr} {j : Nat} (h : exec i s = .next t) (hj : touches i j = false)
    (a : Addr) : t.redirects j a = s.redirects j a :=
  redirects_congr (exec_cfg h) (entry_exec_of_untouched h (.inl hj)) a

theorem holdsAlone_install {idx : Index} {f o : Addr} {c : SizeClass} (hidx : idx.toNat < s.cfg.capacity)
    (hf : aligned s.cfg c f = true) (ho : aligned s.cfg c o = true)
    (hothers : ∀ j, j ≠ idx.toNat → s.redirects j a = false) :
    (s.install idx f o c).holdsAlone idx.toNat (newEntry f o c) a := by
  refine ⟨by rw [entry_install hidx, if_pos ⟨rfl, hf, ho⟩], fun j hj => ?_⟩
  exact (redirects_exec_of_untouched (i := .install idx f o c) rfl (decide_eq_false hj.symm) a).trans (hothers j hj)

theorem holdsAlone_setEnabled {idx : Index} (h : s.holdsAlone idx.toNat e a) (b : Bool) :
    (s.setEnabled idx b).holdsAlone idx.toNat { e with enabled := b } a := by
  obtain ⟨he, hothers⟩ := h
  refine ⟨by rw [entry_setEnabled, if_pos rfl, he]; rfl, fun j hj => ?_⟩
  have hkept : (s.setEnabled idx b).entry j = s.entry j := by rw [entry_setEnabled, if_neg hj.symm]
  exact (redirects_congr (setEnabled_cfg s idx b) hkept a).trans (hothers j hj)

/-- R43, the case of no match. -/
theorem translation_of_no_redirect (h : ∀ i, s.redirects i a = false) :
    s.translation a = { hit := false, addr := a } := by
  obtain ⟨_, heq⟩ | ⟨i, hi, _⟩ := translation_allowed s a
  · exact heq
  · simp [h i] at hi

/-- 20_memory.md R49: a disabled entry redirects nothing. -/
theorem translation_of_holdsAlone_disabled {i : Nat} (h : s.holdsAlone i e a) (hdisabled : e.enabled = false) :
    s.translation a = { hit := false, addr := a } := by
  obtain ⟨he, hothers⟩ := h
  obtain ⟨_, hsilent⟩ := silent_of_disabled_entry he hdisabled
  refine translation_of_no_redirect fun j => ?_
  by_cases hj : j = i
  · rw [hj, hsilent]
  · exact hothers j hj

/-- R43, where the one match is the slot's. -/
theorem translation_of_holdsAlone_enabled {i : Nat} (h : s.holdsAlone i e a) (henabled : e.enabled = true)
    (hinside : inSource s.cfg e a = true) :
    s.translation a = { hit := true, addr := destination s.cfg e a } := by
  obtain ⟨he, hothers⟩ := h
  have hi : s.redirects i a = true := by rw [redirects_of_entry he, henabled, hinside, Bool.true_and]
  have huniq : ∀ j, s.redirects j a = true → j = i := fun j =>
    not_imp_not.1 fun hne => Bool.eq_false_iff.1 (hothers j hne)
  rw [translation_of_unique hi huniq, destinationOf_of_entry he]

end Alone

/-- Settles O40: the slot holds the new entry throughout and no other catches the address, so the bit that each
command leaves decides the translation. -/
theorem installThenEnableRedirects : Obligations.InstallThenEnableRedirects := by
  intro s idx f o k c hidx hf ho hk hothers
  have hf : aligned s.cfg c f = true := (aligned_iff _ _ _).2 hf
  have ho : aligned s.cfg c o = true := (aligned_iff _ _ _).2 ho
  have hlow := aligned_mod hf
  have hinstalled := holdsAlone_install hidx hf ho hothers
  have henabled := holdsAlone_setEnabled hinstalled true
  have hdisabled := holdsAlone_setEnabled henabled false
  refine ⟨_, _, _, rfl, translation_of_holdsAlone_disabled hinstalled rfl, rfl, ?_, rfl,
    translation_of_holdsAlone_disabled hdisabled rfl⟩
  have hcfg : ((s.install idx f o c).setEnabled idx true).cfg = s.cfg := by rw [setEnabled_cfg, install_cfg]
  rw [translation_of_holdsAlone_enabled henabled rfl]
  · rw [hcfg]
    exact congrArg _ (destination_newEntry hlow o k)
  · rw [hcfg]
    exact inSource_newEntry hlow o hk

end Sys2Proof.Machine
end
